-- ==== Sys2Proof/Word.lean ====
section
/-! DEFINITION. The word types of the block: bytes, frames, pin levels, and the interval of a pulse schedule. -/

namespace Sys2Proof

/-- An operand byte: `address` and `command` are 8 bits, unsigned (R9 `00_scope.md`). -/
abbrev Byte := BitVec 8

/-- A NEC frame: a 32-bit unsigned value (R9 `00_scope.md`, R42 `30_encoding.md`). -/
abbrev Frame := BitVec 32

/-- The two logic levels of the output pin (`00_scope.md` section 5): `low` is the active level of a mark,
`high` the rest level of a space and of the idle pin. -/
inductive Level
  | low
  | high
deriving DecidableEq, Repr

/-- One element of a pulse schedule: a level and a whole number of ticks (format INTERVAL, R45 `30_encoding.md`). -/
structure Interval where
  level : Level
  duration : Nat
deriving DecidableEq, Repr

end Sys2Proof
end

