-- ==== Sys2Proof/Config.lean ====
section
/-! DEFINITION. What is fixed for the machine: the time unit, the reference number of channels, and the spec's
open parameters (`92_eei_decisions.md`, "Open parameters, collected"), which are opaque. -/

namespace Sys2Proof.Config

/-- The time unit `T = 564` ticks, a constant of the block and not a tunable (R7 `00_scope.md`). -/
def timeUnit : Nat := 564

/-- DESIGN CHOICE (log entry 1): the number of channels `State.reset` has, the reference system's `NPINS = 4`
(R10 `00_scope.md`). Nothing else reads it: a state may have any number of channels. -/
def referencePins : Nat := 4

/-- The open parameter `TICK_PERIOD` (D2): the real length of a tick, positive, nominally 1000 ns. No rule depends on it
(R8 `00_scope.md`). DESIGN CHOICE (log entry 2): the spec says a duration above 0, and its type here is a whole number of
nanoseconds. -/
opaque tickPeriodNs : ℕ+

/-- The open parameter `PIN_TABLE` (D4): the excluded request layer's map from selector to channel. DESIGN CHOICE (log
entry 3): any map, where "Open parameters, collected" has it injective into `0 .. NPINS-1`; the model keeps neither
constraint, since its number of channels is a state's own. -/
opaque pinTable : Nat → Nat

/-- The address byte the excluded layer's two-argument `sendCommand` uses, which the source does not say
(R55 `30_encoding.md`, `91_not_in_source.md` N9; log entry 3). -/
opaque sendCommandAddress : Byte

end Sys2Proof.Config
end

