-- ==== Sys2Proof/Machine/Operands.lean ====
section
/-! DEFINITION. Operand assembly and the timing constants: guard bytes and frames (R47, R48 `30_encoding.md`,
R57 `40_frame_packer.md`), the durations (R63, R64 `41_pulse_serializer.md`), and the words of the formats CMD and
UOP (R43, R46 `30_encoding.md`). -/

namespace Sys2Proof

/-- `not8(x)`, the guard byte of `x`: each of the eight bits complemented (R47 `30_encoding.md`). -/
def not8 (x : Byte) : Byte := ~~~x

/-- `PACK(address, command) = { address, not8(address), command, not8(command) }` (R57 `40_frame_packer.md`). -/
def packFrame (address command : Byte) : Frame :=
  address ++ not8 address ++ command ++ not8 command

/-- The field `ADDR = f[31:24]` (R42 `30_encoding.md`). -/
def frameAddr (f : Frame) : Byte := f.extractLsb' 24 8
/-- The field `NADDR = f[23:16]` (R42). -/
def frameNaddr (f : Frame) : Byte := f.extractLsb' 16 8
/-- The field `CMD = f[15:8]` (R42). -/
def frameCmd (f : Frame) : Byte := f.extractLsb' 8 8
/-- The field `NCMD = f[7:0]` (R42). -/
def frameNcmd (f : Frame) : Byte := f.extractLsb' 0 8

/-- The two xor conditions of R58 `40_frame_packer.md`: exactly the words `PACK` yields satisfy them (R61). -/
def isPackedFrame (f : Frame) : Bool :=
  (frameNaddr f ^^^ frameAddr f == 0xFF#8) && (frameNcmd f ^^^ frameCmd f == 0xFF#8)

/-- `D_LEAD_MARK = 16T = 9024` (R63 `41_pulse_serializer.md`). -/
def dLeadMark : Nat := 16 * Config.timeUnit
/-- `D_LEAD_SPACE = 8T = 4512` (R63). -/
def dLeadSpace : Nat := 8 * Config.timeUnit
/-- `D_BIT_MARK = T = 564` (R63). -/
def dBitMark : Nat := Config.timeUnit
/-- `D_SPACE0 = T = 564` (R63). -/
def dSpace0 : Nat := Config.timeUnit
/-- `D_SPACE1 = 3T = 1692` (R63). -/
def dSpace1 : Nat := 3 * Config.timeUnit
/-- `D_STOP_MARK = T = 564` (R63). -/
def dStopMark : Nat := Config.timeUnit

/-- `SPACE(b)`: the duration of the space after the mark of a data bit `b` (R64 `41_pulse_serializer.md`). -/
def spaceOf (b : Bool) : Nat := if b then dSpace1 else dSpace0

/-- A duration as a value of the 14-bit register `TIMER` (R20 `10_state.md`; every duration fits, R84). -/
def timerOf (d : Nat) : BitVec 14 := BitVec.ofNat 14 d

/-- The CMD word `{start, address, command}` (R43 `30_encoding.md`). -/
def cmdWord (start : Bool) (address command : Byte) : BitVec 17 :=
  BitVec.ofBool start ++ address ++ command

/-- The UOP word `{PHASE, SHREG[31]}` (R46 `30_encoding.md`). -/
def uopWord (phase : BitVec 3) (shreg31 : Bool) : BitVec 4 := phase ++ BitVec.ofBool shreg31

end Sys2Proof
end

