-- ==== Sys2Proof/Machine/State.lean ====
section
/-! DEFINITION. The state as plain data: per channel the four registers, the four input ports and the model's two
records; the system; the reasons a step can stop; and the state after reset. -/

namespace Sys2Proof.Machine

/-- The register `PHASE` (R17 `10_state.md`), an enumerated type of six constructors as that rule asks. -/
inductive Phase
  | idle
  | leadMark
  | leadSpace
  | bitMark
  | bitSpace
  | stopMark
deriving DecidableEq, Repr

/-- The four registers of a channel, "and nothing else that holds a value from one tick to the next" (R16). -/
structure Regs where
  /-- `PHASE`: the interval the pin is in (R17). -/
  phase : Phase
  /-- `SHREG`: the bits of the frame not yet fully emitted, left-aligned (R18). -/
  shreg : BitVec 32
  /-- `BITCNT`: how many data bits are not yet fully emitted (R19). -/
  bitcnt : BitVec 6
  /-- `TIMER`: how many ticks the current interval still has to run (R20). -/
  timer : BitVec 14
deriving DecidableEq, Repr

/-- The input ports of a channel in one tick, `in_t` (R13 `10_state.md`). -/
structure Ports where
  rst : Bool
  start : Bool
  address : Byte
  command : Byte
deriving DecidableEq, Repr

/-- One channel (R10 `00_scope.md`). -/
structure Channel where
  regs : Regs
  /-- The input ports during the current tick. -/
  ports : Ports
  /-- MODEL'S OWN (log entry 12): the word on the wires from the Frame packer to the Pulse serializer (R86), 0 when
  no operation holds one. -/
  bus : Frame
  /-- MODEL'S OWN (log entry 13): the pulse schedule emitted so far, in whole symbols, by the current transmission (by
  the last one, while the channel is idle). -/
  sched : List Interval
deriving DecidableEq, Repr

/-- One line of a command-level program (R53 `30_encoding.md`): in tick `tick` it drives channel `chan`'s ports with
`ports`. -/
structure Line where
  tick : Nat
  chan : Nat
  ports : Ports
deriving DecidableEq, Repr

/-- The system: the tuple of its channels (R27 `10_state.md`), the number of the current tick and the caller's program
(MODEL'S OWN, log entries 11 and 10). -/
structure State where
  channels : List Channel
  tick : Nat
  program : List Line
deriving DecidableEq, Repr

/-- The block raises no exception of any kind (R99 `60_exceptions.md`), so no step faults: no constructor. -/
inductive Fault
deriving DecidableEq, Repr

/-- Why the model stops. None of these is an event of the hardware (R101). -/
inductive Refusal
  /-- Raised by `exec`'s arm of an operation that has no meaning yet. Safe. -/
  | notModelled (mnemonic : String)
  /-- Raised by every operation, and by the step for a line of the current tick, when `pin` names no channel: the
  block offers no behaviour for it and a model refuses the run (R93 `42_emit.md`; log entry 5). Safe. -/
  | noSuchPin
  /-- Raised by the operations of a tick when the registers are outside the reachable set, to which the spec gives no
  meaning (R30 `10_state.md`, `93_implementation_defined.md` U4; log entry 6). Safe. -/
  | unreachableState
  /-- Raised by a micro-operation that the channel's registers and `rst` do not select in this tick (R46
  `30_encoding.md`; log entry 7). The step never runs one. Safe. -/
  | notSelected
deriving DecidableEq, Repr

/-- The idle registers `(IDLE, 0, 0, 0)`, which are the reset state of a channel (R26, R29 `10_state.md`). -/
def Regs.idle : Regs := ⟨.idle, 0, 0, 0⟩

/-- `NOP` with `rst = 0`, what the ports of a tick that no line lists hold (R53 `30_encoding.md`; log entry 10). -/
def Ports.quiet : Ports := ⟨false, false, 0, 0⟩

/-- A channel right after reset (R29); its ports and the model's records by log entries 9, 12 and 13. -/
def Channel.reset : Channel := ⟨Regs.idle, Ports.quiet, 0, []⟩

/-- A system of `n` channels right after reset, at tick 0, with no program. -/
def State.resetWith (n : Nat) : State := ⟨List.replicate n Channel.reset, 0, []⟩

/-- The machine right after reset, with the reference system's four channels (log entry 1). -/
def State.reset : State := State.resetWith Config.referencePins

end Sys2Proof.Machine
end

