-- ==== Sys2Proof/Machine/Flags.lean ====
section
/-! DEFINITION. There is no flags register (R21 `10_state.md`). What stands in its place: the derived outputs `out`,
`busy`, `ready` (R23, R24), the conditions the rules test (R21), the sequencer position (R22), and the set of register
values to which the spec gives a meaning (R25, R30). -/

namespace Sys2Proof.Machine

/-- The binary code of a phase (R17 `10_state.md`). -/
def Phase.code : Phase → BitVec 3
  | .idle => 0#3
  | .leadMark => 1#3
  | .leadSpace => 2#3
  | .bitMark => 3#3
  | .bitSpace => 4#3
  | .stopMark => 5#3

/-- A level as the bit on the port `out`: `1 = HIGH`, `0 = LOW` (R14). -/
def levelBit : Level → BitVec 1
  | .low => 0#1
  | .high => 1#1

/-- `OUT(s)`, a function of `PHASE` alone (R23). -/
def Regs.out (r : Regs) : Level :=
  match r.phase with
  | .leadMark => .low
  | .bitMark => .low
  | .stopMark => .low
  | .idle => .high
  | .leadSpace => .high
  | .bitSpace => .high

/-- `BUSY(s) = 1` when `PHASE ≠ IDLE` (R24). -/
def Regs.busy (r : Regs) : Bool := r.phase != .idle

/-- `READY(s) = 1 - BUSY(s)` (R24). -/
def Regs.ready (r : Regs) : Bool := !r.busy

/-- The tested condition `SHREG[31]`: the data bit on the pin (R18, R21). -/
def Regs.dataBit (r : Regs) : Bool := r.shreg.getLsbD 31

/-- The tested condition `BITCNT = 1`: the bit now ending is the last (R21). -/
def Regs.lastBit (r : Regs) : Bool := r.bitcnt == 1#6

/-- `TIMER > 1`: the current tick is not the last of its interval (R73). -/
def Regs.counting (r : Regs) : Bool := decide (1 < r.timer.toNat)

/-- The sequencer position as the number of the interval on the pin, 0 to 66; none in `IDLE` (R22). -/
def Regs.interval (r : Regs) : Option Nat :=
  match r.phase with
  | .idle => none
  | .leadMark => some 0
  | .leadSpace => some 1
  | .bitMark => some (2 + 2 * (32 - r.bitcnt.toNat))
  | .bitSpace => some (3 + 2 * (32 - r.bitcnt.toNat))
  | .stopMark => some 66

/-- `1 ≤ TIMER ≤ d`. -/
def Regs.timerWithin (r : Regs) (d : Nat) : Bool :=
  decide (1 ≤ r.timer.toNat) && decide (r.timer.toNat ≤ d)

/-- `1 ≤ BITCNT = n ≤ 32` and `SHREG = f << (32 - n)` for some 32-bit `f`: the low `32 - n` bits are 0 (R25 (d), (e)). -/
def Regs.shifted (r : Regs) : Bool :=
  decide (1 ≤ r.bitcnt.toNat) && decide (r.bitcnt.toNat ≤ 32) && (r.shreg <<< r.bitcnt.toNat == 0#32)

/-- The register values to which the spec gives a meaning: the list of R25, for every 32-bit word `f`, since the
serializer is defined for every word (R72 `41_pulse_serializer.md`). -/
def Regs.wf (r : Regs) : Bool :=
  match r.phase with
  | .idle => (r.shreg == 0#32) && (r.bitcnt == 0#6) && (r.timer == 0#14)
  | .leadMark => (r.bitcnt == 32#6) && r.timerWithin dLeadMark
  | .leadSpace => (r.bitcnt == 32#6) && r.timerWithin dLeadSpace
  | .bitMark => r.shifted && r.timerWithin dBitMark
  | .bitSpace => r.shifted && r.timerWithin (spaceOf r.dataBit)
  | .stopMark => (r.shreg == 0#32) && (r.bitcnt == 0#6) && r.timerWithin dStopMark

end Sys2Proof.Machine
end

