-- ==== Sys2Proof/Machine/Ops.lean ====
section
/-! DEFINITION. The shared operations: acting on one channel of the system, the register writes of the step function
(R73 to R79 `41_pulse_serializer.md`, R87 `42_emit.md`, R114 `70_reset_and_hazards.md`), and time. The block has no
memory (R31) and takes no exception (R99, R104), so there is no operation on memory and none that takes an exception. -/

namespace Sys2Proof.Machine

/-- The outcome of an operation on a part of the state. -/
abbrev Result (α : Type) := Host.Outcome α Fault Refusal

/-- Continue with the next state; stop where the outcome stops. -/
def andThen {α β : Type} (r : Result α) (f : α → Result β) : Result β :=
  match r with
  | .next a => f a
  | .fault e => .fault e
  | .refused e => .refused e

/-- The state with `c` as channel `pin`. -/
def State.setChannel (s : State) (pin : Nat) (c : Channel) : State :=
  { s with channels := s.channels.set pin c }

/-- Act on channel `pin` and on nothing else; refuse where there is no such channel (R93 `42_emit.md`). -/
def onChannel (pin : Nat) (s : State) (f : Channel → Result Channel) : Result State :=
  match s.channels[pin]? with
  | none => .refused .noSuchPin
  | some c => andThen (f c) fun c' => .next (s.setChannel pin c')

/-! ### The registers -/

/-- `COUNT`: `TIMER <- TIMER - 1`, nothing else changes (R73). -/
def Regs.count (r : Regs) : Regs := { r with timer := r.timer - 1#14 }

/-- Start an interval: `PHASE <- p; TIMER <- d`. -/
def Regs.startInterval (r : Regs) (p : Phase) (d : Nat) : Regs := { r with phase := p, timer := timerOf d }

/-- `SHREG <- SHREG << 1; BITCNT <- BITCNT - 1` (R78). -/
def Regs.shiftOut (r : Regs) : Regs := { r with shreg := r.shreg <<< 1, bitcnt := r.bitcnt - 1#6 }

/-- The registers right after acceptance of the word `f`: `(LEAD_MARK, f, 32, 9024)` (R87). -/
def Regs.loaded (f : Frame) : Regs := ⟨.leadMark, f, 32#6, timerOf dLeadMark⟩

/-! ### The channel -/

/-- The symbol's intervals join the schedule (section 2 of `41_pulse_serializer.md`). -/
def Channel.contribute (c : Channel) (ivs : List Interval) : Channel := { c with sched := c.sched ++ ivs }

/-- Evaluate the Frame packer: its result stands on the wires to the serializer (R57, R86). -/
def Channel.evalPacker (c : Channel) (address command : Byte) : Channel :=
  { c with bus := packFrame address command }

/-- The serializer's load strobe (R86): `SHREG` takes the word on the wires, which is consumed, and a new schedule
begins. -/
def Channel.load (c : Channel) : Channel := { c with regs := Regs.loaded c.bus, bus := 0#32, sched := [] }

/-- Write the reset values to the four registers (R114). -/
def Channel.clear (c : Channel) : Channel := { c with regs := Regs.idle }

/-! ### Time -/

/-- The lines of the program for channel `k` in tick `t` (R53 `30_encoding.md`). -/
def linesAt (program : List Line) (t k : Nat) : List Line :=
  program.filter fun l => l.tick == t && l.chan == k

/-- The line that gives the operand bytes: the first that drives `start`, else the first (DESIGN CHOICE, log entry 10:
R53 does not say which of two lines does). -/
def operandLine (lines : List Line) : Option Line := (lines.find? fun l => l.ports.start).or lines.head?

/-- The ports that the lines of one tick and channel put together (R53 `30_encoding.md`): `rst = 1` by any `RESET` line,
`start = 1` by any `EMIT` line, so a tick may have both; with no line, `NOP` with `rst = 0` (log entry 10). -/
def portsOf (lines : List Line) : Ports :=
  let operands := (operandLine lines).elim Ports.quiet Line.ports
  ⟨lines.any fun l => l.ports.rst, lines.any fun l => l.ports.start, operands.address, operands.command⟩

/-- The ports of channel `k` in tick `t`. -/
def portsAt (program : List Line) (t k : Nat) : Ports := portsOf (linesAt program t k)

/-- Drive every channel's ports with the program's values for the current tick. -/
def State.drivePorts (s : State) : State :=
  { s with channels := s.channels.mapIdx fun k c => { c with ports := portsAt s.program s.tick k } }

/-- The next tick begins: its number and its ports. -/
def State.nextTick (s : State) : State := State.drivePorts { s with tick := s.tick + 1 }

/-- Load a program from outside the machine (log entry 10): its lines for the current tick stand on the ports at
once. -/
def State.loadProgram (s : State) (program : List Line) : State := State.drivePorts { s with program := program }

/-- The current tick has a line for a channel that does not exist (R93 `42_emit.md`, H5 of R91). -/
def State.addressesNoChannel (s : State) : Bool :=
  s.program.any fun l => l.tick == s.tick && decide (s.channels.length ≤ l.chan)

end Sys2Proof.Machine
end

