-- ==== Sys2Proof/Syntax.lean ====
section
/-! DEFINITION. The operations of the block, one constructor per row of `spec/opcode_table.json`
(R41 and section 6 of `30_encoding.md`). -/

namespace Sys2Proof

/-- An operation at channel `pin` (R93 `42_emit.md`: the channel is chosen by where the word is presented, so it is
an operand here and no field of the word). A field that the operation ignores is kept, so that no bit of its word is
lost: `NOP`'s two bytes (R43 `30_encoding.md`) and the `SHREG[31]` bit of a micro-operation (R46). -/
inductive Instr
  /-- `EMIT address, command` (R87). -/
  | emit (pin : Nat) (address command : Byte)
  /-- `NOP` (R88); both bytes are ignored. -/
  | nop (pin : Nat) (address command : Byte)
  /-- `RESET`, the port `rst` (R114). -/
  | reset (pin : Nat)
  /-- `PACK(address, command)` (R57). -/
  | pack (pin : Nat) (address command : Byte)
  /-- The symbol `LEAD` (R65). -/
  | lead (pin : Nat)
  /-- The symbol `BIT0` (R66). -/
  | bit0 (pin : Nat)
  /-- The symbol `BIT1` (R67). -/
  | bit1 (pin : Nat)
  /-- The symbol `STOP` (R68). -/
  | stop (pin : Nat)
  /-- The idle symbol `REST` (R69). -/
  | rest (pin : Nat)
  /-- `U_IDLE`, UOP `000x` (R74). -/
  | uIdle (pin : Nat) (shreg31 : Bool)
  /-- `U_LEAD_MARK`, UOP `001x` (R75). -/
  | uLeadMark (pin : Nat) (shreg31 : Bool)
  /-- `U_LEAD_SPACE`, UOP `010x` (R76). -/
  | uLeadSpace (pin : Nat) (shreg31 : Bool)
  /-- `U_BIT_MARK`, UOP `011b` (R77): `b = SHREG[31]` chooses the space. -/
  | uBitMark (pin : Nat) (b : Bool)
  /-- `U_BIT_SPACE`, UOP `100x` (R78). -/
  | uBitSpace (pin : Nat) (shreg31 : Bool)
  /-- `U_STOP_MARK`, UOP `101x` (R79). -/
  | uStopMark (pin : Nat) (shreg31 : Bool)
deriving DecidableEq, Repr

end Sys2Proof
end

