-- ==== Sys2Proof/Machine/Symbols.lean ====
section
/-! DEFINITION. The symbol level of the Pulse serializer: the intervals each symbol contributes (R65 to R69
`41_pulse_serializer.md`) and the schedule functions `SCHED` and `EMITSCHED` (R70, R89). -/

namespace Sys2Proof.Machine

/-- The intervals of `LEAD`: `[(LOW, 9024), (HIGH, 4512)]` (R65). -/
def leadIntervals : List Interval := [⟨.low, dLeadMark⟩, ⟨.high, dLeadSpace⟩]

/-- The intervals of a data symbol: a mark of `T` and a space of `SPACE(b)` (R64, R66, R67). -/
def bitIntervals (b : Bool) : List Interval := [⟨.low, dBitMark⟩, ⟨.high, spaceOf b⟩]

/-- The interval of `STOP`: `[(LOW, 564)]` (R68). -/
def stopIntervals : List Interval := [⟨.low, dStopMark⟩]

/-- `LEAD` joins the schedule. -/
def Channel.addLead (c : Channel) : Channel := c.contribute leadIntervals

/-- The data symbol `BIT0` or `BIT1` joins the schedule. -/
def Channel.addBit (c : Channel) (b : Bool) : Channel := c.contribute (bitIntervals b)

/-- `STOP` joins the schedule. -/
def Channel.addStop (c : Channel) : Channel := c.contribute stopIntervals

/-- `REST` contributes nothing (R69). -/
def Channel.addRest (c : Channel) : Channel := c.contribute []

/-- `LEAD` (R65). -/
def execLead (pin : Nat) (s : State) : Result State := onChannel pin s fun c => .next c.addLead

/-- `BIT0` (R66). -/
def execBit0 (pin : Nat) (s : State) : Result State := onChannel pin s fun c => .next (c.addBit false)

/-- `BIT1` (R67). -/
def execBit1 (pin : Nat) (s : State) : Result State := onChannel pin s fun c => .next (c.addBit true)

/-- `STOP` (R68). -/
def execStop (pin : Nat) (s : State) : Result State := onChannel pin s fun c => .next c.addStop

/-- `REST` (R69): no interval; nothing changes. -/
def execRest (pin : Nat) (s : State) : Result State := onChannel pin s fun c => .next c.addRest

/-- The data bits of `f` from `f[n-1]` down to `f[0]`, in order of transmission (R33 `20_memory.md`). -/
def bitsDown (f : Frame) : Nat → List Bool
  | 0 => []
  | n + 1 => f.getLsbD n :: bitsDown f n

/-- `SCHED(f)` (R70): the lead-in, the 32 data bits most significant first, the stop mark. -/
def sched (f : Frame) : List Interval :=
  leadIntervals ++ (bitsDown f 32).flatMap bitIntervals ++ stopIntervals

/-- `EMITSCHED(address, command) = SCHED(PACK(address, command))` (R89 `42_emit.md`). -/
def emitSched (address command : Byte) : List Interval := sched (packFrame address command)

/-- The total duration of a list of intervals, in ticks (R71 (e)). -/
def duration (ivs : List Interval) : Nat := (ivs.map Interval.duration).sum

/-- `n1`, the number of one-bits of `f` (R71 (e)). -/
def onesOf (f : Frame) : Nat := (bitsDown f 32).count true

/-- The stream of symbols the word `f` is read as, at channel `pin`: `LEAD, BIT<f[31]>, ..., BIT<f[0]>, STOP` (R44
`30_encoding.md`). -/
def symbolStream (pin : Nat) (f : Frame) : List Instr :=
  .lead pin :: ((bitsDown f 32).map fun b => if b then .bit1 pin else .bit0 pin) ++ [.stop pin]

end Sys2Proof.Machine
end

