-- ==== Sys2Proof/Machine/Serializer.lean ====
section
/-! DEFINITION. The tick level of the Pulse serializer: `COUNT`, the end-of-interval arms and the five micro-operations
of a busy channel (R73, R75 to R79 `41_pulse_serializer.md`). The last tick of a symbol's last interval completes the
symbol, whose intervals join the schedule (log entry 13). -/

namespace Sys2Proof.Machine

/-- `COUNT` (R73). -/
def Channel.count (c : Channel) : Channel := { c with regs := c.regs.count }

/-- The last tick of `LEAD_MARK`: `PHASE <- LEAD_SPACE; TIMER <- 4512` (R75). -/
def Channel.endLeadMark (c : Channel) : Channel :=
  { c with regs := c.regs.startInterval .leadSpace dLeadSpace }

/-- The last tick of `LEAD_SPACE`: `PHASE <- BIT_MARK; TIMER <- 564` (R76); `LEAD` is complete. -/
def Channel.endLeadSpace (c : Channel) : Channel :=
  { c.addLead with regs := c.regs.startInterval .bitMark dBitMark }

/-- The last tick of `BIT_MARK`: `PHASE <- BIT_SPACE; TIMER <- SPACE(b)`, with `b = SHREG[31]` (R77). -/
def Channel.endBitMark (c : Channel) (b : Bool) : Channel :=
  { c with regs := c.regs.startInterval .bitSpace (spaceOf b) }

/-- The last tick of `BIT_SPACE`: `SHREG` shifts, `BITCNT` counts down, and the value of `BITCNT` before that chooses
`STOP_MARK` or the next `BIT_MARK`, each of 564 ticks (R78); the data symbol is complete. -/
def Channel.endBitSpace (c : Channel) : Channel :=
  { c.addBit c.regs.dataBit with
    regs := c.regs.shiftOut.startInterval (if c.regs.lastBit then .stopMark else .bitMark)
      (if c.regs.lastBit then dStopMark else dBitMark) }

/-- The last tick of `STOP_MARK`: `PHASE <- IDLE; TIMER <- 0` (R79); `STOP` is complete. -/
def Channel.endStopMark (c : Channel) : Channel :=
  { c.addStop with regs := c.regs.startInterval .idle 0 }

/-- The end-of-interval arm the phase selects (R73). `IDLE` has none. -/
def Channel.endInterval (c : Channel) : Channel :=
  match c.regs.phase with
  | .idle => c
  | .leadMark => c.endLeadMark
  | .leadSpace => c.endLeadSpace
  | .bitMark => c.endBitMark c.regs.dataBit
  | .bitSpace => c.endBitSpace
  | .stopMark => c.endStopMark

/-- A busy channel's tick without reset: `COUNT` while `TIMER > 1`, else the end-of-interval arm (R73). -/
def Channel.advance (c : Channel) : Channel := if c.regs.counting then c.count else c.endInterval

/-- A micro-operation of a busy channel: selected by `PHASE` with `rst = 0`, it counts or runs its end-of-interval arm.
A micro-operation the channel does not select is refused (log entry 7), and so are registers outside the reachable set
(R30; log entry 6). -/
def Channel.microOp (c : Channel) (selected : Bool) (endArm : Channel → Channel) : Result Channel :=
  if c.ports.rst || !selected then .refused .notSelected
  else if !c.regs.wf then .refused .unreachableState
  else .next (if c.regs.counting then c.count else endArm c)

/-- `U_LEAD_MARK` (R75); the bit `SHREG[31]` does not matter (R46). -/
def execULeadMark (pin : Nat) (_shreg31 : Bool) (s : State) : Result State :=
  onChannel pin s fun c => c.microOp (c.regs.phase == .leadMark) Channel.endLeadMark

/-- `U_LEAD_SPACE` (R76); the bit `SHREG[31]` does not matter (R46). -/
def execULeadSpace (pin : Nat) (_shreg31 : Bool) (s : State) : Result State :=
  onChannel pin s fun c => c.microOp (c.regs.phase == .leadSpace) Channel.endLeadSpace

/-- `U_BIT_MARK` (R77): its word holds the data bit `b = SHREG[31]`. -/
def execUBitMark (pin : Nat) (b : Bool) (s : State) : Result State :=
  onChannel pin s fun c =>
    c.microOp (c.regs.phase == .bitMark && c.regs.dataBit == b) fun c => c.endBitMark b

/-- `U_BIT_SPACE` (R78); the bit `SHREG[31]` does not matter to the choice (R46). -/
def execUBitSpace (pin : Nat) (_shreg31 : Bool) (s : State) : Result State :=
  onChannel pin s fun c => c.microOp (c.regs.phase == .bitSpace) Channel.endBitSpace

/-- `U_STOP_MARK` (R79); the bit `SHREG[31]` does not matter (R46). -/
def execUStopMark (pin : Nat) (_shreg31 : Bool) (s : State) : Result State :=
  onChannel pin s fun c => c.microOp (c.regs.phase == .stopMark) Channel.endStopMark

end Sys2Proof.Machine
end

