-- ==== Sys2Proof/Machine/Command.lean ====
section
/-! DEFINITION. The command level: `EMIT` and `NOP` (R87, R88, R96 `42_emit.md`), `RESET` (R114
`70_reset_and_hazards.md`), and the micro-operation of an idle channel, `U_IDLE`, which performs one of the first two
(R74 `41_pulse_serializer.md`). -/

namespace Sys2Proof.Machine

/-- The acceptance of a command (R87): the packer is evaluated and the serializer loads its result (R86). -/
def Channel.accept (c : Channel) (address command : Byte) : Channel := (c.evalPacker address command).load

/-- What `EMIT` and `NOP` share: `rst = 1` overrides the command word (R103, R114); registers outside the reachable set
are refused (R30; log entry 6); a busy channel does not look at its command port, and its transmission advances by one
tick (R88, R96); an idle one does `whenIdle`. -/
def Channel.commandTick (c : Channel) (whenIdle : Channel → Channel) : Result Channel :=
  if c.ports.rst then .next c.clear
  else if !c.regs.wf then .refused .unreachableState
  else if c.regs.busy then .next c.advance
  else .next (whenIdle c)

/-- `EMIT address, command` in one tick (R87, R96). -/
def Channel.emit (c : Channel) (address command : Byte) : Result Channel :=
  c.commandTick fun c => c.accept address command

/-- `NOP` in one tick (R88): on an idle channel no register changes, and the pin is at `REST` (R69). -/
def Channel.nop (c : Channel) : Result Channel := c.commandTick Channel.addRest

/-- `EMIT address, command` (R87, R96). -/
def execEmit (pin : Nat) (address command : Byte) (s : State) : Result State :=
  onChannel pin s fun c => c.emit address command

/-- `NOP` (R88): its two bytes are ignored. -/
def execNop (pin : Nat) (_address _command : Byte) (s : State) : Result State :=
  onChannel pin s fun c => c.nop

/-- `RESET` (R114): the four registers take their reset values, whatever the state and whatever the other ports. -/
def execReset (pin : Nat) (s : State) : Result State :=
  onChannel pin s fun c => .next c.clear

/-- `U_IDLE` (R74): `start` chooses between the acceptance of `EMIT` and `NOP`; selected by `PHASE = IDLE`, `rst = 0`. -/
def execUIdle (pin : Nat) (_shreg31 : Bool) (s : State) : Result State :=
  onChannel pin s fun c =>
    if c.ports.rst || c.regs.busy then .refused .notSelected
    else if c.ports.start then c.emit c.ports.address c.ports.command
    else c.nop

end Sys2Proof.Machine
end

