-- ==== Sys2Proof/Machine/Packer.lean ====
section
/-! DEFINITION. The word level: the Frame packer's one operation, `PACK` (R57 `40_frame_packer.md`). -/

namespace Sys2Proof.Machine

/-- `PACK address, command` (R57): the frame stands at the packer's output. It reads no register and no port and writes
no register (R59). -/
def execPack (pin : Nat) (address command : Byte) (s : State) : Result State :=
  onChannel pin s fun c => .next (c.evalPacker address command)

end Sys2Proof.Machine
end

