-- ==== Sys2Proof/Machine/Dispatch.lean ====
section
/-! DEFINITION. One arm per operation. -/

namespace Sys2Proof.Machine

def exec (i : Instr) (s : State) : Host.Outcome State Fault Refusal :=
  match i with
  | .emit pin address command => Sys2Proof.Machine.execEmit pin address command s
  | .nop pin address command => Sys2Proof.Machine.execNop pin address command s
  | .reset pin => Sys2Proof.Machine.execReset pin s
  | .pack pin address command => Sys2Proof.Machine.execPack pin address command s
  | .lead pin => Sys2Proof.Machine.execLead pin s
  | .bit0 pin => Sys2Proof.Machine.execBit0 pin s
  | .bit1 pin => Sys2Proof.Machine.execBit1 pin s
  | .stop pin => Sys2Proof.Machine.execStop pin s
  | .rest pin => Sys2Proof.Machine.execRest pin s
  | .uIdle pin x => Sys2Proof.Machine.execUIdle pin x s
  | .uLeadMark pin x => Sys2Proof.Machine.execULeadMark pin x s
  | .uLeadSpace pin x => Sys2Proof.Machine.execULeadSpace pin x s
  | .uBitMark pin b => Sys2Proof.Machine.execUBitMark pin b s
  | .uBitSpace pin x => Sys2Proof.Machine.execUBitSpace pin x s
  | .uStopMark pin x => Sys2Proof.Machine.execUStopMark pin x s

end Sys2Proof.Machine
end

