-- ==== Sys2Proof/WellFormed.lean ====
section
/-! DEFINITION. When an operation is well formed for a system of `npins` channels. -/

namespace Sys2Proof

/-- The channel an operation acts on (R93 `42_emit.md`). -/
def Instr.pin : Instr → Nat
  | .emit pin _ _ => pin
  | .nop pin _ _ => pin
  | .reset pin => pin
  | .pack pin _ _ => pin
  | .lead pin => pin
  | .bit0 pin => pin
  | .bit1 pin => pin
  | .stop pin => pin
  | .rest pin => pin
  | .uIdle pin _ => pin
  | .uLeadMark pin _ => pin
  | .uLeadSpace pin _ => pin
  | .uBitMark pin _ => pin
  | .uBitSpace pin _ => pin
  | .uStopMark pin _ => pin

/-- The one check (R32 (b) `20_memory.md`, R93 `42_emit.md`): `pin` names an existing channel. Every value of every
other field is legal (R50 `30_encoding.md`). -/
def Instr.wellFormed (npins : Nat) (i : Instr) : Bool := decide (i.pin < npins)

end Sys2Proof
end

