-- ==== Sys2Proof/Decode.lean ====
section
/-! DEFINITION. The five formats of `30_encoding.md` section 1, a total decoder from their words to operations that
rejects by name, the encoder, and the reading of a word numbered as `spec/opcode_table.json` numbers it. The block has
no instruction memory (R31): a word is presented at a port, read from the registers, or selected by position, and its
format is known from where it stands (log entry 17). -/

namespace Sys2Proof

/-- A word of one of the formats that select an operation (R41 to R46 `30_encoding.md`). -/
inductive Code
  /-- Format CMD, `{start, address, command}` (R43). -/
  | cmd (w : BitVec 17)
  /-- The port `rst` (the row `RESET` of the operation table). -/
  | portRst (w : BitVec 1)
  /-- Format FRAME (R42). -/
  | frame (w : BitVec 32)
  /-- Format SYM (R44): the position in the 34-symbol stream, and the symbol's bits (one for a data symbol, none
  otherwise). -/
  | sym (position : Nat) (bits : List Bool)
  /-- Format UOP, `{PHASE, SHREG[31]}` (R46). -/
  | uop (w : BitVec 4)
deriving DecidableEq, Repr

/-- Why a word stands for no operation. -/
inductive Reject
  /-- The port `rst` is 0, which selects nothing (R114). -/
  | rstLow
  /-- A FRAME word whose guard bytes are not the complements, which `PACK` never yields (R51 (a)). -/
  | brokenGuard
  /-- A SYM word with bits where its position carries none, or without its one bit (R44). -/
  | symbolBits
  /-- A UOP word with `PHASE` 6 or 7, given no meaning (R46, R51 (b)). -/
  | unreachablePhase
deriving DecidableEq, Repr

/-- Format CMD: bit 16 selects (R43). -/
def decodeCmd (pin : Nat) (w : BitVec 17) : Instr :=
  if w.getLsbD 16 then .emit pin (w.extractLsb' 8 8) (w.extractLsb' 0 8)
  else .nop pin (w.extractLsb' 8 8) (w.extractLsb' 0 8)

/-- The port `rst`: 1 selects `RESET` (R114). -/
def decodePortRst (pin : Nat) (w : BitVec 1) : Except Reject Instr :=
  if w.getLsbD 0 then .ok (.reset pin) else .error .rstLow

/-- Format FRAME: a packed frame is the result word of `PACK` on its fields `ADDR` and `CMD` (R58, R61). -/
def decodeFrame (pin : Nat) (f : BitVec 32) : Except Reject Instr :=
  if isPackedFrame f then .ok (.pack pin (frameAddr f) (frameCmd f)) else .error .brokenGuard

/-- Format SYM: selected by position (R44): 0 is `LEAD`, 1 to 32 the data symbols, 33 `STOP`, and after it `REST`. -/
def decodeSym (pin : Nat) (position : Nat) (bits : List Bool) : Except Reject Instr :=
  if position = 0 then
    match bits with
    | [] => .ok (.lead pin)
    | _ :: _ => .error .symbolBits
  else if position ≤ 32 then
    match bits with
    | [false] => .ok (.bit0 pin)
    | [true] => .ok (.bit1 pin)
    | _ => .error .symbolBits
  else
    match bits with
    | [] => .ok (if position = 33 then .stop pin else .rest pin)
    | _ :: _ => .error .symbolBits

/-- Format UOP: `PHASE` selects (R46). -/
def decodeUop (pin : Nat) (w : BitVec 4) : Except Reject Instr :=
  match (w.extractLsb' 1 3).toNat with
  | 0 => .ok (.uIdle pin (w.getLsbD 0))
  | 1 => .ok (.uLeadMark pin (w.getLsbD 0))
  | 2 => .ok (.uLeadSpace pin (w.getLsbD 0))
  | 3 => .ok (.uBitMark pin (w.getLsbD 0))
  | 4 => .ok (.uBitSpace pin (w.getLsbD 0))
  | 5 => .ok (.uStopMark pin (w.getLsbD 0))
  | _ => .error .unreachablePhase

/-- The operation a word presented at channel `pin` stands for; total, rejecting by name. -/
def decode (pin : Nat) : Code → Except Reject Instr
  | .cmd w => .ok (decodeCmd pin w)
  | .portRst w => decodePortRst pin w
  | .frame w => decodeFrame pin w
  | .sym position bits => decodeSym pin position bits
  | .uop w => decodeUop pin w

/-- The word of an operation, from the same tables (the pattern strings of R42, R43, R44, R46). A data symbol is
encoded at the first of its positions and `REST` at the first position after `STOP`. -/
def encode : Instr → Code
  | .emit _ address command => .cmd (cmdWord true address command)
  | .nop _ address command => .cmd (cmdWord false address command)
  | .reset _ => .portRst 1#1
  | .pack _ address command => .frame (packFrame address command)
  | .lead _ => .sym 0 []
  | .bit0 _ => .sym 1 [false]
  | .bit1 _ => .sym 1 [true]
  | .stop _ => .sym 33 []
  | .rest _ => .sym 34 []
  | .uIdle _ x => .uop (uopWord 0#3 x)
  | .uLeadMark _ x => .uop (uopWord 1#3 x)
  | .uLeadSpace _ x => .uop (uopWord 2#3 x)
  | .uBitMark _ b => .uop (uopWord 3#3 b)
  | .uBitSpace _ x => .uop (uopWord 4#3 x)
  | .uStopMark _ x => .uop (uopWord 5#3 x)

/-- The bits of a word as one number, bit 0 the least significant. -/
def Code.value : Code → Nat
  | .cmd w => w.toNat
  | .portRst w => w.toNat
  | .frame w => w.toNat
  | .sym _ bits => bits.foldl (fun n b => 2 * n + b.toNat) 0
  | .uop w => w.toNat

/-- The `width`, `mask` and `match` that `spec/opcode_table.json` gives an operation's row. -/
def tableRow : Instr → Nat × Nat × Nat
  | .emit _ _ _ => (17, 0x10000, 0x10000)
  | .nop _ _ _ => (17, 0x10000, 0x00000)
  | .reset _ => (1, 0x1, 0x1)
  | .pack _ _ _ => (32, 0x00000000, 0x00000000)
  | .lead _ => (0, 0x0, 0x0)
  | .bit0 _ => (1, 0x1, 0x0)
  | .bit1 _ => (1, 0x1, 0x1)
  | .stop _ => (0, 0x0, 0x0)
  | .rest _ => (0, 0x0, 0x0)
  | .uIdle _ _ => (4, 0xE, 0x0)
  | .uLeadMark _ _ => (4, 0xE, 0x2)
  | .uLeadSpace _ _ => (4, 0xE, 0x4)
  | .uBitMark _ _ => (4, 0xE, 0x6)
  | .uBitSpace _ _ => (4, 0xE, 0x8)
  | .uStopMark _ _ => (4, 0xE, 0xA)

/-- `PACK`'s row of the operation table has 16 bits of its own, its operand fields `ADDR` and `CMD`; its guard fields
are not free (R58: the packer has no input by which a caller could set them). A table word that leaves them 0 is
completed with them (log entry 16); any other word stands as it is. -/
def completeGuards (f : BitVec 32) : BitVec 32 :=
  if frameNaddr f = 0#8 ∧ frameNcmd f = 0#8 then packFrame (frameAddr f) (frameCmd f) else f

/-- The words that the bits `w` of a row `nbits` wide may be, in the operation table's order. The table gives the
widths 17, 1, 32, 0 and 4; `nbits` may be that width or the whole bytes that hold it. The number alone does not tell
the format, so where two rows share it the table's first comes first (log entry 16). -/
def tableCodes (nbits w : Nat) : List Code :=
  if nbits = 0 then (if w = 0 then [.sym 0 []] else [])
  else if nbits = 1 then (if w = 1 then [.portRst 1#1] else if w = 0 then [.sym 1 [false]] else [])
  else if nbits = 4 then (if w < 16 then [.uop (BitVec.ofNat 4 w)] else [])
  else if nbits = 8 then
    (if w = 1 then [.portRst 1#1] else if w = 0 then [.sym 1 [false]]
     else if w < 16 then [.uop (BitVec.ofNat 4 w)] else [])
  else if nbits = 17 ∨ nbits = 24 then (if w < 2 ^ 17 then [.cmd (BitVec.ofNat 17 w)] else [])
  else if nbits = 32 then (if w < 2 ^ 32 then [.frame (completeGuards (BitVec.ofNat 32 w))] else [])
  else []

/-- The operation the decoder reads, at channel 0, from a word numbered as `spec/opcode_table.json` numbers it. -/
def decodeTableWord (nbits w : Nat) : Option Instr :=
  (tableCodes nbits w).findSome? fun c =>
    match decode 0 c with
    | .ok i => some i
    | .error _ => none

end Sys2Proof
end

