-- ==== Sys2Proof/Machine/Fetch.lean ====
section
/-! DEFINITION. Which word selects what a channel does in a tick (R46 `30_encoding.md`, R73 `41_pulse_serializer.md`),
and the inverse: placing an operation so that the next step runs it. -/

namespace Sys2Proof.Machine

/-- The word that selects: the port `rst` when it is 1, else `{PHASE, SHREG[31]}` (R73). -/
def Channel.selectWord (c : Channel) : Code :=
  if c.ports.rst then .portRst 1#1 else .uop (uopWord c.regs.phase.code c.regs.dataBit)

/-- The CMD word on a channel's command port in this tick (R43). -/
def Channel.cmdCode (c : Channel) : Code := .cmd (cmdWord c.ports.start c.ports.address c.ports.command)

/-- The operation channel `k` runs in this tick: decoded from its select word. -/
def State.fetch (s : State) (k : Nat) : Option Instr :=
  match s.channels[k]? with
  | none => none
  | some c =>
    match decode k c.selectWord with
    | .ok i => some i
    | .error _ => none

/-- A packed frame whose bit 31 is `b`, for the registers of a placed operation (log entry 16). -/
def placedFrame (b : Bool) : Frame := packFrame (if b then 0x80#8 else 0x00#8) 0x00#8

/-- The registers of a placed operation, with `rst = 0`. -/
def Channel.placeRegs (c : Channel) (r : Regs) : Channel := { c with regs := r, ports := { c.ports with rst := false } }

/-- The channel placed so that its next tick runs operation `i`: the command port for a command, the registers for a
micro-operation or for the last tick of a symbol, an idle channel with `EMIT` on its port for `PACK` (log entry 16). -/
def Channel.place (c : Channel) (i : Instr) : Channel :=
  match i with
  | .emit _ address command => { c with ports := ⟨false, true, address, command⟩ }
  | .nop _ address command => { c with ports := ⟨false, false, address, command⟩ }
  | .reset _ => { c with ports := { c.ports with rst := true } }
  | .pack _ address command => { c with regs := Regs.idle, ports := ⟨false, true, address, command⟩ }
  | .lead _ => c.placeRegs ⟨.leadSpace, placedFrame false, 32#6, 1#14⟩
  | .bit0 _ => c.placeRegs ⟨.bitSpace, placedFrame false, 32#6, 1#14⟩
  | .bit1 _ => c.placeRegs ⟨.bitSpace, placedFrame true, 32#6, 1#14⟩
  | .stop _ => c.placeRegs ⟨.stopMark, 0#32, 0#6, 1#14⟩
  | .rest _ => { c with regs := Regs.idle, ports := .quiet }
  | .uIdle _ _ => c.placeRegs Regs.idle
  | .uLeadMark _ x => c.placeRegs ⟨.leadMark, placedFrame x, 32#6, timerOf dLeadMark⟩
  | .uLeadSpace _ x => c.placeRegs ⟨.leadSpace, placedFrame x, 32#6, timerOf dLeadSpace⟩
  | .uBitMark _ b => c.placeRegs ⟨.bitMark, placedFrame b, 32#6, timerOf dBitMark⟩
  | .uBitSpace _ x => c.placeRegs ⟨.bitSpace, placedFrame x, 32#6, timerOf (spaceOf x)⟩
  | .uStopMark _ _ => c.placeRegs ⟨.stopMark, 0#32, 0#6, timerOf dStopMark⟩

/-- The state with a table word placed at channel 0; unchanged where the decoder refuses the word, since the hardware
has no place for it. -/
def State.placeTableWord (s : State) (nbits w : Nat) : State :=
  match decodeTableWord nbits w, s.channels with
  | some i, c :: cs => { s with channels := c.place i :: cs }
  | _, _ => s

end Sys2Proof.Machine
end

