-- ==== Sys2Proof/Machine/Tick.lean ====
section
/-! DEFINITION. One tick of the system (R27 `10_state.md`, R73 `41_pulse_serializer.md`): every channel runs the
operation it selects, then the next tick begins. -/

namespace Sys2Proof.Machine

/-- `step(s, in)` of one channel, in the order R73 writes it; refused outside the reachable set (R30; log entry 6). The
tick below runs decoded operations, and agrees with this reading. -/
def Channel.tick (c : Channel) : Result Channel :=
  if c.ports.rst then .next c.clear
  else if !c.regs.wf then .refused .unreachableState
  else if c.regs.busy then .next c.advance
  else if c.ports.start then .next (c.accept c.ports.address c.ports.command)
  else .next c.addRest

/-- Channel `k` runs the operation it selects in this tick. -/
def tickChannel (k : Nat) (s : State) : Result State :=
  match s.fetch k with
  | some i => exec i s
  | none => .refused .noSuchPin

/-- `n` channels from number `k` on run their operations. They share nothing, so the order does not matter (R27; log
entry 15). -/
def tickChannels : Nat → Nat → State → Result State
  | 0, _, s => .next s
  | n + 1, k, s => andThen (tickChannel k s) fun s' => tickChannels n (k + 1) s'

/-- One tick: refused where the caller's program addresses a channel that does not exist (R93, R101), else every
channel steps on its own inputs, and the next tick's inputs are driven. -/
def tickSystem (s : State) : Result State :=
  if s.addressesNoChannel then .refused .noSuchPin
  else andThen (tickChannels s.channels.length 0 s) fun s' => .next s'.nextTick

/-- A list of operations, one after another. -/
def execAll : List Instr → State → Result State
  | [], s => .next s
  | i :: is, s => andThen (exec i s) (execAll is)

end Sys2Proof.Machine
end

