-- ==== Sys2Proof/Machine/Step.lean ====
section
/-! DEFINITION. The step: one step of the model is one tick (R8 `00_scope.md`). -/

namespace Sys2Proof.Machine

/-- One tick of the whole system. -/
def step (s : State) : Host.Outcome State Fault Refusal := tickSystem s

/-- `n` ticks, stopping where a step stops. -/
def steps : Nat → State → Host.Outcome State Fault Refusal
  | 0, s => .next s
  | n + 1, s => andThen (step s) (steps n)

/-- The state whose next step runs, at channel 0, the operation the decoder reads from a table word (log entry 16). -/
def State.withFetchWord (s : State) (nbits w : Nat) : State := s.placeTableWord nbits w

end Sys2Proof.Machine
end

