-- ==== Sys2Proof/Laws/PerInstr.lean ====
section
/-! SUPPORT. Per operation: its encoded word has the width, the mask and the match of its row of the operation table. -/

namespace Sys2Proof.Laws.EncodingMatchesTable

/-- The encoded word fits its row's width, and its masked bits are its row's match. -/
def Statement (i : Instr) : Prop :=
  (encode i).value < 2 ^ (tableRow i).1 ∧ (encode i).value &&& (tableRow i).2.1 = (tableRow i).2.2

/-- Bit 16 of a CMD word is `start`. -/
theorem cmdWord_and_start (b : Bool) (a c : Byte) :
    (cmdWord b a c).toNat &&& 0x10000 = if b then 0x10000 else 0 := by
  have h : (cmdWord b a c) &&& 0x10000#17 = if b then 0x10000#17 else 0#17 := by
    ext i hi
    cases b <;> simp only [cmdWord, BitVec.getElem_and, BitVec.getElem_append, BitVec.ofBool_false, BitVec.ofBool_true] <;>
      (interval_cases i <;> simp)
  have h' := congrArg BitVec.toNat h
  rw [BitVec.toNat_and] at h'
  cases b <;> simpa using h'

/-- The three high bits of a UOP word are `PHASE`. -/
theorem uop_row (p : BitVec 3) (x : Bool) :
    (uopWord p x).toNat < 2 ^ 4 ∧ (uopWord p x).toNat &&& 0xE = 2 * p.toNat := by
  revert p x
  decide

theorem emit (pin : Nat) (a c : Byte) : Statement (.emit pin a c) :=
  ⟨(cmdWord true a c).isLt, cmdWord_and_start true a c⟩
theorem nop (pin : Nat) (a c : Byte) : Statement (.nop pin a c) :=
  ⟨(cmdWord false a c).isLt, cmdWord_and_start false a c⟩
theorem reset (pin : Nat) : Statement (.reset pin) :=
  show (1 : Nat) < 2 ^ 1 ∧ 1 &&& 0x1 = 0x1 by decide
theorem pack (pin : Nat) (a c : Byte) : Statement (.pack pin a c) :=
  ⟨(packFrame a c).isLt, Nat.and_zero _⟩
theorem lead (pin : Nat) : Statement (.lead pin) :=
  show (0 : Nat) < 2 ^ 0 ∧ 0 &&& 0x0 = 0x0 by decide
theorem bit0 (pin : Nat) : Statement (.bit0 pin) :=
  show (0 : Nat) < 2 ^ 1 ∧ 0 &&& 0x1 = 0x0 by decide
theorem bit1 (pin : Nat) : Statement (.bit1 pin) :=
  show (1 : Nat) < 2 ^ 1 ∧ 1 &&& 0x1 = 0x1 by decide
theorem stop (pin : Nat) : Statement (.stop pin) :=
  show (0 : Nat) < 2 ^ 0 ∧ 0 &&& 0x0 = 0x0 by decide
theorem rest (pin : Nat) : Statement (.rest pin) :=
  show (0 : Nat) < 2 ^ 0 ∧ 0 &&& 0x0 = 0x0 by decide
theorem uIdle (pin : Nat) (x : Bool) : Statement (.uIdle pin x) :=
  uop_row 0#3 _
theorem uLeadMark (pin : Nat) (x : Bool) : Statement (.uLeadMark pin x) :=
  uop_row 1#3 _
theorem uLeadSpace (pin : Nat) (x : Bool) : Statement (.uLeadSpace pin x) :=
  uop_row 2#3 _
theorem uBitMark (pin : Nat) (b : Bool) : Statement (.uBitMark pin b) :=
  uop_row 3#3 _
theorem uBitSpace (pin : Nat) (x : Bool) : Statement (.uBitSpace pin x) :=
  uop_row 4#3 _
theorem uStopMark (pin : Nat) (x : Bool) : Statement (.uStopMark pin x) :=
  uop_row 5#3 _

end Sys2Proof.Laws.EncodingMatchesTable
end

