-- ==== Sys2Proof/Machine/Observe.lean ====
section
/-! DEFINITION. The observation a claim is stated through (R12 `00_scope.md`, R111 `60_exceptions.md`): the waveform of
a channel, a schedule played out tick by tick, and the run-length encoding of a waveform. -/

namespace Sys2Proof.Machine

/-- `OUT` of channel `k` (R23). -/
def State.outOf (s : State) (k : Nat) : Option Level := s.channels[k]?.map fun c => c.regs.out

/-- `BUSY` of channel `k` (R24). -/
def State.busyOf (s : State) (k : Nat) : Option Bool := s.channels[k]?.map fun c => c.regs.busy

/-- `w(t)`: the level of channel `k`'s pin `t` ticks after `s`, where the run reaches that tick (R12). -/
def waveform (s : State) (k t : Nat) : Option Level :=
  match steps t s with
  | .next s' => s'.outOf k
  | .fault _ => none
  | .refused _ => none

/-- A schedule played out tick by tick: each level, as many times as its duration. -/
def playOut (ivs : List Interval) : List Level := ivs.flatMap fun iv => List.replicate iv.duration iv.level

/-- One more tick at level `l` before a run-length encoded waveform. -/
def addTick (l : Level) : List Interval → List Interval
  | [] => [⟨l, 1⟩]
  | iv :: rest => if iv.level = l then ⟨l, iv.duration + 1⟩ :: rest else ⟨l, 1⟩ :: iv :: rest

/-- The run-length encoding of a waveform (R12, R71 (b)). -/
def runLengths (w : List Level) : List Interval := w.foldr addTick []

/-- The number of falling edges (HIGH then LOW) of a waveform (R71 (b)). -/
def fallingEdges : List Level → Nat
  | .high :: .low :: w => fallingEdges (.low :: w) + 1
  | _ :: w => fallingEdges w
  | [] => 0

/-- The number of rising edges (LOW then HIGH) of a waveform (R71 (b)). -/
def risingEdges : List Level → Nat
  | .low :: .high :: w => risingEdges (.high :: w) + 1
  | _ :: w => risingEdges w
  | [] => 0

/-- The durations of the marks of a schedule, its LOW intervals, in order (R71 (c)). -/
def markDurations (ivs : List Interval) : List Nat :=
  (ivs.filter fun iv => decide (iv.level = .low)).map Interval.duration

/-- Where tick `j` (from 0) falls in a schedule: the number of the interval, its level, and how many ticks it still has
to run, this one included (the `i`, `l_i` and `S_i + d_i + 1 - k` of R80 with `j = k - 1`); none after its end. -/
def intervalAt : List Interval → Nat → Option (Nat × Level × Nat)
  | [], _ => none
  | iv :: rest, j =>
    if j < iv.duration then some (0, iv.level, iv.duration - j)
    else (intervalAt rest (j - iv.duration)).map fun (i, l, left) => (i + 1, l, left)

/-- Ticks as nanoseconds of the open parameter `TICK_PERIOD` (D2; R125: nothing in the block depends on it). -/
def realTimeNs (ticks : Nat) : Nat := ticks * Config.tickPeriodNs

end Sys2Proof.Machine
end

