-- ==== Sys2Proof/Machine/Call.lean ====
section
/-! DEFINITION. The caller's side of a channel: the lines of a command-level program (R53 `30_encoding.md`), and the
blocking call `emit(pin, address, command)` as the port transaction of R92 `42_emit.md`. -/

namespace Sys2Proof.Machine

/-- `emit(pin, address, command)`, as a call (R53). -/
structure EmitCall where
  pin : Nat
  address : Byte
  command : Byte
deriving DecidableEq, Repr

/-- The line `@t ch<pin>: EMIT address, command` (R53): it drives `start = 1` and the operands, and not `rst`. -/
def EmitCall.line (e : EmitCall) (t : Nat) : Line := ⟨t, e.pin, ⟨false, true, e.address, e.command⟩⟩

/-- The line `@t ch<k>: RESET` (R53): it drives `rst = 1`. DESIGN CHOICE (log entry 10): in a tick with no other line for
the channel, `start` is 0 and both operand bytes are 0, which R53 does not say. -/
def resetLine (t k : Nat) : Line := ⟨t, k, ⟨true, false, 0, 0⟩⟩

/-- R92 (1): the caller sees `busy = 0` on an existing channel, and by H4 of R91 may not proceed otherwise. -/
def EmitCall.mayProceed (e : EmitCall) (s : State) : Bool := s.busyOf e.pin == some false

/-- The program without the commands that a caller would drive on channel `k` from tick `t` on: their `start` is 0. Its
`RESET` lines stay. -/
def withoutCommands (program : List Line) (t k : Nat) : List Line :=
  program.map fun l =>
    if l.chan = k ∧ t ≤ l.tick then { l with ports := { l.ports with start := false } } else l

/-- R92 (2) and (3): in this tick the channel's port holds `start = 1` and the two bytes, and from the next tick on
`start = 0`. `rst` and the other channels are as they were. -/
def EmitCall.present (e : EmitCall) (s : State) : State :=
  match s.channels[e.pin]? with
  | none => s
  | some c =>
    { s with program := withoutCommands s.program s.tick e.pin }.setChannel e.pin
      { c with ports := ⟨c.ports.rst, true, e.address, e.command⟩ }

/-- The first state after `s`, within `n` ticks, in which channel `k` is not busy; none where there is none, or where a
step before it stops. -/
def awaitIdle (k : Nat) : Nat → State → Option State
  | 0, _ => none
  | n + 1, s =>
    match step s with
    | .next s' => if s'.busyOf k = some false then some s' else awaitIdle k n s'
    | .fault _ => none
    | .refused _ => none

/-- The blocking call (R92): where the caller may proceed, it presents the command, and the call returns in the first
later tick with `busy = 0` (4), with no value but the state of that tick; none where it has not returned within `n` ticks
(the bound is the model's own, log entry 20). -/
def EmitCall.call (e : EmitCall) (n : Nat) (s : State) : Option State :=
  if e.mayProceed s then awaitIdle e.pin n (e.present s) else none

end Sys2Proof.Machine
end

