-- ==== Sys2Proof/Machine/Request.lean ====
section
/-! DEFINITION. Context only, not part of the block (R5 `00_scope.md`): the excluded request layer's expansions of
`selectInput` and `sendCommand` to at most one `emit` (R54, R55, R56 `30_encoding.md`, R100 `60_exceptions.md`). The
parsing of the text is not in the source. -/

namespace Sys2Proof.Machine

/-- `CMDTAB[input]` (R54): 1 to 5 give `0x40, 0x60, 0x10, 0x50, 0xB0`. -/
def cmdTab : Nat → Option Byte
  | 1 => some 0x40#8
  | 2 => some 0x60#8
  | 3 => some 0x10#8
  | 4 => some 0x50#8
  | 5 => some 0xB0#8
  | _ => none

/-- The selector is in `[1, 4]` (R54, R55). -/
def selectorValid (selector : Nat) : Bool := decide (1 ≤ selector) && decide (selector ≤ 4)

/-- `selectInput("<selector>,<input>")`: the call it makes, if any, and its return code (R54). -/
def selectInput (selector input : Nat) : Option EmitCall × Nat :=
  match selectorValid selector, cmdTab input with
  | true, some command => (some ⟨Config.pinTable selector, 0x01#8, command⟩, 0)
  | _, _ => (none, 1)

/-- `sendCommand("<selector>,<address>,<command>")` on natural numbers (R55); "truncated to a byte" is the low eight
bits (R56). What it does with negative integers is not in the source (N10). -/
def sendCommand (selector address command : Nat) : Option EmitCall × Nat :=
  if selectorValid selector then
    (some ⟨Config.pinTable selector, BitVec.ofNat 8 address, BitVec.ofNat 8 command⟩, 0)
  else (none, 1)

/-- `sendCommand("<selector>,<command>")`: its address is not in the source (R55, N9), an open value. -/
def sendCommandShort (selector command : Nat) : Option EmitCall × Nat :=
  if selectorValid selector then
    (some ⟨Config.pinTable selector, Config.sendCommandAddress, BitVec.ofNat 8 command⟩, 0)
  else (none, 1)

end Sys2Proof.Machine
end

