-- ==== Sys2Proof/Safety.lean ====
section
/-! DEFINITION. What counts as a safe run, in the terms claims use: the reachable-state invariant (R25 `10_state.md`)
and the caller's duties, whose breach is the spec's verdict on a run (R91 `42_emit.md`, R101 `60_exceptions.md`). -/

namespace Sys2Proof.Machine

/-- The list of R25, cases (a) to (f), for the word `f` of the last accepted command. -/
def Regs.reachableWith (r : Regs) (f : Frame) : Prop :=
  match r.phase with
  | .idle => r = Regs.idle
  | .leadMark => r.shreg = f ∧ r.bitcnt = 32#6 ∧ 1 ≤ r.timer.toNat ∧ r.timer.toNat ≤ 9024
  | .leadSpace => r.shreg = f ∧ r.bitcnt = 32#6 ∧ 1 ≤ r.timer.toNat ∧ r.timer.toNat ≤ 4512
  | .bitMark =>
    1 ≤ r.bitcnt.toNat ∧ r.bitcnt.toNat ≤ 32 ∧ r.shreg = f <<< (32 - r.bitcnt.toNat) ∧
      1 ≤ r.timer.toNat ∧ r.timer.toNat ≤ 564
  | .bitSpace =>
    1 ≤ r.bitcnt.toNat ∧ r.bitcnt.toNat ≤ 32 ∧ r.shreg = f <<< (32 - r.bitcnt.toNat) ∧
      1 ≤ r.timer.toNat ∧ (r.shreg.getLsbD 31 = false → r.timer.toNat ≤ 564) ∧
      (r.shreg.getLsbD 31 = true → r.timer.toNat ≤ 1692)
  | .stopMark => r.shreg = 0#32 ∧ r.bitcnt = 0#6 ∧ 1 ≤ r.timer.toNat ∧ r.timer.toNat ≤ 564

/-- The schedule record of a transmission of `f` in progress: the lead-in once it is complete, the data symbols that
are complete, and (`STOP_MARK`) all of them (log entry 13). An idle channel's record is not constrained. -/
def Channel.recordOf (c : Channel) (f : Frame) : Prop :=
  match c.regs.phase with
  | .idle => True
  | .leadMark => c.sched = []
  | .leadSpace => c.sched = []
  | .bitMark => c.sched = leadIntervals ++ ((bitsDown f 32).take (32 - c.regs.bitcnt.toNat)).flatMap bitIntervals
  | .bitSpace => c.sched = leadIntervals ++ ((bitsDown f 32).take (32 - c.regs.bitcnt.toNat)).flatMap bitIntervals
  | .stopMark => c.sched = leadIntervals ++ (bitsDown f 32).flatMap bitIntervals

/-- The channel is reachable (R25): its registers are those of a transmission of `PACK(a, c)` for some command, and its
record agrees with them. -/
def Channel.reachable (c : Channel) : Prop :=
  ∃ address command : Byte,
    c.regs.reachableWith (packFrame address command) ∧ c.recordOf (packFrame address command)

/-- The invariant of the system: there is a channel (R10, `NPINS ≥ 1`), and every channel is reachable (R25). -/
def State.Inv (s : State) : Prop := s.channels ≠ [] ∧ ∀ c ∈ s.channels, c.reachable

/-- Every channel's registers are ones to which the spec gives a meaning (R25 for every word, R72). -/
def State.wf (s : State) : Bool := s.channels.all fun c => c.regs.wf

/-- `rst = 0` on channel `k` in each of the `n` ticks from this one on: on its port now, and in every line of the
program for it (R80, H8 of R91). -/
def State.noResetWithin (s : State) (k n : Nat) : Bool :=
  (s.channels[k]?.all fun c => !c.ports.rst) &&
    s.program.all fun l =>
      l.chan != k || decide (l.tick ≤ s.tick) || decide (s.tick + n ≤ l.tick) || !l.ports.rst

/-- No line of the program for one of the `n` ticks from this one on addresses a channel that does not exist (H5 of
R91). -/
def State.pinsValidWithin (s : State) (n : Nat) : Bool :=
  s.program.all fun l =>
    decide (l.tick < s.tick) || decide (s.tick + n ≤ l.tick) || decide (l.chan < s.channels.length)

/-- The duties whose breach can be seen in a state (R101). -/
inductive Breach
  /-- H4 of R91: `start = 1` on a channel with `busy = 1`. -/
  | startWhileBusy
  /-- H5 of R91: the tick's program addresses a channel that does not exist. -/
  | noSuchPin
deriving DecidableEq, Repr

/-- The duty the caller breaks in this tick, if any: the spec then calls the run refused, and makes no claim about it
in the source's terms (R101), though the hardware goes on as R96 says. DESIGN CHOICE
(log entry 19): where both duties are broken in one tick the spec gives no order of the two reasons, and `noSuchPin` is
the one named. -/
def State.breach (s : State) : Option Breach :=
  if s.addressesNoChannel then some .noSuchPin
  else if s.channels.any fun c => c.ports.start && c.regs.busy then some .startWhileBusy
  else none

/-- A run of `n` ticks from `s` that goes on to its end and in which the caller keeps its duties (R91, R101). -/
def safeRun : Nat → State → Bool
  | 0, _ => true
  | n + 1, s =>
    s.breach.isNone &&
      match step s with
      | .next s' => safeRun n s'
      | .fault _ => false
      | .refused _ => false

end Sys2Proof.Machine
end

