-- ==== Sys2Proof/Certificates/Slice0/Obligations.lean ====
section
/-! DEFINITION. The statements for the provers, in the order of the spec's files. Durations and register values are the
spec's numbers, written out. A channel "with a meaning" is one whose registers the spec gives one: the list of R25 for
some 32-bit word (`Regs.wf`; log entry 6). -/

open Sys2Proof Sys2Proof.Machine

/-! ### State and reset (`10_state.md`) -/

/-- In the reset state of a system of any number of channels every channel is `(IDLE, 0, 0, 0)`, its pin HIGH, not
busy, and it accepts a command in that very tick (R29). The acceptance needs `rst = 0` (R87), which R53 gives a tick
without a `RESET` line; that the ports of the reset state hold it is the model's choice (log entry 9). -/
def Obligations.ResetChannelsAreIdleAndReady : Prop :=
  ∀ n k : Nat, k < n →
    ∃ c, (State.resetWith n).channels[k]? = some c ∧ c.regs = ⟨.idle, 0#32, 0#6, 0#14⟩ ∧
      c.regs.out = .high ∧ c.regs.busy = false ∧
      ∀ a d : Byte, ∃ t c', exec (.emit k a d) (State.resetWith n) = .next t ∧ t.channels[k]? = some c' ∧
        c'.regs = ⟨.leadMark, packFrame a d, 32#6, 9024#14⟩

/-- The invariant holds in the reset state of every system with a channel. -/
def Obligations.ResetSatisfiesTheInvariant : Prop :=
  ∀ n : Nat, 0 < n → (State.resetWith n).Inv

/-- R23 and R24: the pin is LOW in the three marks and HIGH in `IDLE` and the two spaces; `busy` is 1 exactly outside
`IDLE`, and `ready` is its negation; all of it a function of `PHASE` alone. -/
def Obligations.PinAndBusyFollowThePhase : Prop :=
  ∀ r : Regs,
    (r.out = .low ↔ r.phase = .leadMark ∨ r.phase = .bitMark ∨ r.phase = .stopMark) ∧
    (r.out = .high ↔ r.phase = .idle ∨ r.phase = .leadSpace ∨ r.phase = .bitSpace) ∧
    (r.busy = true ↔ r.phase ≠ .idle) ∧ (r.ready = true ↔ r.phase = .idle) ∧
    ∀ r' : Regs, r'.phase = r.phase → r'.out = r.out ∧ r'.busy = r.busy

/-- R25: every step keeps the reachable-state invariant, from every state that meets it. -/
def Obligations.StepKeepsTheInvariant : Prop :=
  ∀ s t : State, s.Inv → step s = .next t → t.Inv

/-- R25 and R72: a state that meets the invariant has a meaning in every channel, `TIMER = 0` exactly in `IDLE`, and
`BITCNT = 0` exactly in `IDLE` and `STOP_MARK`. -/
def Obligations.InvariantBoundsTheCounters : Prop :=
  ∀ (s : State) (k : Nat) (c : Channel), s.Inv → s.channels[k]? = some c →
    c.regs.wf = true ∧ (c.regs.timer = 0#14 ↔ c.regs.phase = .idle) ∧
    (c.regs.bitcnt = 0#6 ↔ c.regs.phase = .idle ∨ c.regs.phase = .stopMark) ∧
    c.regs.timer.toNat ≤ 9024 ∧ c.regs.bitcnt.toNat ≤ 32

/-- From every state, with a meaning or not, a step that completes leaves every channel with registers to which the
serializer gives a meaning, for some 32-bit word (R72). Where a channel had none, this rests on the model's refusal of
such registers without reset (log entry 6, DEDUCED from R30) and on R114, by which a reset clears them. -/
def Obligations.StepLeavesEveryChannelMeaningful : Prop :=
  ∀ s t : State, step s = .next t → t.wf = true

/-- R26: under the invariant an idle channel's registers are those of the reset state. -/
def Obligations.IdleChannelHoldsNothing : Prop :=
  ∀ (s : State) (k : Nat) (c : Channel), s.Inv → s.channels[k]? = some c → c.regs.phase = .idle →
    c.regs = Channel.reset.regs

/-- R19: while a data bit is on the pin, `SHREG[31]` is `frame[BITCNT - 1]`. -/
def Obligations.TopBitIsFrameBitBelowCount : Prop :=
  ∀ (r : Regs) (f : Frame), r.reachableWith f → (r.phase = .bitMark ∨ r.phase = .bitSpace) →
    r.shreg.getLsbD 31 = f.getLsbD (r.bitcnt.toNat - 1)

/-- R22: without reset the sequencer position of a channel in flight stays on its interval or moves to the next one,
and after interval 66 to `IDLE`; from `IDLE` it moves to interval 0 or stays. -/
def Obligations.PositionAdvancesByAtMostOne : Prop :=
  ∀ (s t : State) (k : Nat) (c c' : Channel), step s = .next t → s.channels[k]? = some c →
    t.channels[k]? = some c' → c.ports.rst = false →
    (∀ i, c.regs.interval = some i →
      (1 < c.regs.timer.toNat → c'.regs.interval = some i) ∧
      (c.regs.timer.toNat = 1 → i < 66 → c'.regs.interval = some (i + 1)) ∧
      (c.regs.timer.toNat = 1 → i = 66 → c'.regs.interval = none)) ∧
    (c.regs.interval = none → c'.regs.interval = if c.ports.start then some 0 else none)

/-- R27: what a channel does in a step depends on its own registers and ports alone, whatever system it stands in. -/
def Obligations.ChannelsShareNothing : Prop :=
  ∀ (s₁ s₂ t₁ t₂ : State) (k₁ k₂ : Nat) (c₁ c₂ d₁ d₂ : Channel),
    step s₁ = .next t₁ → step s₂ = .next t₂ →
    s₁.channels[k₁]? = some c₁ → s₂.channels[k₂]? = some c₂ →
    t₁.channels[k₁]? = some d₁ → t₂.channels[k₂]? = some d₂ →
    c₁.regs = c₂.regs → c₁.ports = c₂.ports → d₁.regs = d₂.regs

/-- R27 and R38 over whole runs: two systems that agree at the same tick on the registers and ports of a channel and
on the lines of the program for it give that channel the same waveform, whatever their other channels do. -/
def Obligations.WaveformIgnoresOtherChannels : Prop :=
  ∀ (s₁ s₂ : State) (k : Nat) (c₁ c₂ : Channel),
    s₁.channels[k]? = some c₁ → s₂.channels[k]? = some c₂ → c₁.regs = c₂.regs → c₁.ports = c₂.ports →
    s₁.tick = s₂.tick →
    (s₁.program.filter fun l => l.chan == k) = (s₂.program.filter fun l => l.chan == k) →
    ∀ (n : Nat) (t₁ t₂ : State), steps n s₁ = .next t₁ → steps n s₂ = .next t₂ →
      waveform s₁ k n = waveform s₂ k n

/-! ### Encoding (`30_encoding.md`) -/

/-- Decoding the encoded word of every operation, at its channel, gives the operation back. -/
def Obligations.DecodeOfEncodeIsTheOperation : Prop :=
  ∀ i : Instr, decode i.pin (encode i) = .ok i

/-- Two words of the formats other than SYM that decode to one operation at one channel are one word: no bit is
dropped, and no two patterns overlap. -/
def Obligations.EveryWordBitIsKept : Prop :=
  ∀ (k : Nat) (w w' : Code) (i : Instr),
    decode k w = .ok i → decode k w' = .ok i →
    (∀ p bits, w ≠ .sym p bits) → (∀ p bits, w' ≠ .sym p bits) → w = w'

/-- Every operation's encoded word has the width, mask and match of its row of the operation table. -/
def Obligations.EncodedWordsMatchTheTable : Prop :=
  ∀ i : Instr, Sys2Proof.Laws.EncodingMatchesTable.Statement i

/-- By position, 0 is `LEAD`, 1 to 32 are the data symbols by their bit, 33, the 34th and last, is `STOP` (R44), and
after it stands `REST` (section 6, R69). The model's reading (log entry 17, DEDUCED): every later position is `REST`,
and bits where none are carried, or a data symbol without its one bit, are rejected by name. -/
def Obligations.SymbolsAreSelectedByPosition : Prop :=
  ∀ (k p : Nat) (b : Bool),
    decode k (.sym 0 []) = .ok (.lead k) ∧
    (1 ≤ p → p ≤ 32 → decode k (.sym p [b]) = .ok (if b then .bit1 k else .bit0 k)) ∧
    decode k (.sym 33 []) = .ok (.stop k) ∧
    (34 ≤ p → decode k (.sym p []) = .ok (.rest k)) ∧
    (1 ≤ p → p ≤ 32 → decode k (.sym p []) = .error .symbolBits) ∧
    (p = 0 ∨ 33 ≤ p → decode k (.sym p [b]) = .error .symbolBits)

/-- The model's reading (log entry 17, DEDUCED) of the encodings that R51 says are never produced is that `decode`
rejects them by name: a FRAME word exactly when it is no result of `PACK`, though the serializer itself takes such a
word; and a UOP word exactly when its `PHASE` is 6 or 7. Every CMD word stands for an operation (R50). -/
def Obligations.RejectedWordsAreTheUnreachableOnes : Prop :=
  (∀ (k : Nat) (f : BitVec 32),
    decode k (.frame f) = .error .brokenGuard ↔ ∀ a d : Byte, f ≠ packFrame a d) ∧
  (∀ (k : Nat) (w : BitVec 4), decode k (.uop w) = .error .unreachablePhase ↔ 12 ≤ w.toNat) ∧
  (∀ (k : Nat) (w : BitVec 17), ∃ i, decode k (.cmd w) = .ok i)

/-- Words written out from the pattern strings decode to what they stand for: `EMIT 0x01, 0x40` is `0x10140`, `NOP` is
`0x00000`, `rst = 1` is `RESET`, the frame `0x01FE40BF` is `PACK 0x01, 0x40`, and one UOP word per phase. -/
def Obligations.WrittenOutWordsDecodeRight : Prop :=
  decode 0 (.cmd 0x10140#17) = .ok (.emit 0 0x01#8 0x40#8) ∧
  decode 0 (.cmd 0x00000#17) = .ok (.nop 0 0#8 0#8) ∧
  decode 0 (.portRst 1#1) = .ok (.reset 0) ∧
  decode 0 (.frame 0x01FE40BF#32) = .ok (.pack 0 0x01#8 0x40#8) ∧
  decode 0 (.uop 0b0000#4) = .ok (.uIdle 0 false) ∧
  decode 0 (.uop 0b0011#4) = .ok (.uLeadMark 0 true) ∧
  decode 0 (.uop 0b0100#4) = .ok (.uLeadSpace 0 false) ∧
  decode 0 (.uop 0b0110#4) = .ok (.uBitMark 0 false) ∧
  decode 0 (.uop 0b0111#4) = .ok (.uBitMark 0 true) ∧
  decode 0 (.uop 0b1000#4) = .ok (.uBitSpace 0 false) ∧
  decode 0 (.uop 0b1010#4) = .ok (.uStopMark 0 false)

/-- R53: after a step, in the new tick, a channel's port `rst` is 1 exactly by a line that drives it, a `RESET` line
among them, and `start` is 1 exactly by a line that drives it, an `EMIT` line among them, so both can hold in one
tick; with no line both are 0. The operands are those of the first command line of the tick (the choice of the first
of two is the model's, log entry 10). -/
def Obligations.ProgramDrivesThePorts : Prop :=
  ∀ (s t : State) (k : Nat) (c : Channel), step s = .next t → t.channels[k]? = some c →
    t.tick = s.tick + 1 ∧ t.program = s.program ∧
    (c.ports.rst = true ↔ ∃ l ∈ s.program, l.tick = t.tick ∧ l.chan = k ∧ l.ports.rst = true) ∧
    (c.ports.start = true ↔ ∃ l ∈ s.program, l.tick = t.tick ∧ l.chan = k ∧ l.ports.start = true) ∧
    (resetLine t.tick k ∈ s.program → c.ports.rst = true) ∧
    (∀ e : EmitCall, e.pin = k → e.line t.tick ∈ s.program → c.ports.start = true) ∧
    (∀ (before : List Line) (l : Line) (after : List Line), s.program = before ++ l :: after → l.tick = t.tick →
      l.chan = k → l.ports.start = true →
      (∀ m ∈ before, m.tick ≠ t.tick ∨ m.chan ≠ k ∨ m.ports.start = false) →
      c.ports.address = l.ports.address ∧ c.ports.command = l.ports.command) ∧
    ((∀ l ∈ s.program, l.tick ≠ t.tick ∨ l.chan ≠ k) → c.ports.start = false ∧ c.ports.rst = false)

/-- R54 (context): `selectInput` makes one call and returns 0 for a selector 1 to 4 and an input 1 to 5, with address
`0x01` and the command of the fixed table, on the channel of the pin table; otherwise it makes no call and returns 1.
-/
def Obligations.SelectInputExpandsToOneCall : Prop :=
  ∀ selector input : Nat,
    (1 ≤ selector → selector ≤ 4 → 1 ≤ input → input ≤ 5 →
      ∃ command, [0x40#8, 0x60#8, 0x10#8, 0x50#8, 0xB0#8][input - 1]? = some command ∧
        selectInput selector input = (some ⟨Config.pinTable selector, 0x01#8, command⟩, 0)) ∧
    (¬(1 ≤ selector ∧ selector ≤ 4 ∧ 1 ≤ input ∧ input ≤ 5) → selectInput selector input = (none, 1))

/-! ### The Frame packer (`40_frame_packer.md`) -/

/-- R57: the frame is the concatenation of the four bytes, and the same by shifts and ORs. -/
def Obligations.PackIsTheFrameFormula : Prop :=
  ∀ a d : Byte,
    packFrame a d = a ++ (~~~a) ++ d ++ (~~~d) ∧
    packFrame a d =
      (a.zeroExtend 32 <<< 24) ||| ((~~~a).zeroExtend 32 <<< 16) ||| (d.zeroExtend 32 <<< 8) |||
        (~~~d).zeroExtend 32

/-- R58: the four fields of a packed frame, and the two xor conditions. -/
def Obligations.PackedFieldsAreComplements : Prop :=
  ∀ a d : Byte,
    let f := packFrame a d
    f.extractLsb' 24 8 = a ∧ f.extractLsb' 16 8 = 0xFF#8 - a ∧ f.extractLsb' 8 8 = d ∧
    f.extractLsb' 0 8 = 0xFF#8 - d ∧
    f.extractLsb' 16 8 ^^^ f.extractLsb' 24 8 = 0xFF#8 ∧ f.extractLsb' 0 8 ^^^ f.extractLsb' 8 8 = 0xFF#8

/-- R60: sixteen one-bits and sixteen zero-bits, eight of each in each half; so sixteen `BIT1`, sixteen `BIT0` and
68244 ticks in every transmission. -/
def Obligations.PackedFramesHaveSixteenOnes : Prop :=
  ∀ (k : Nat) (a d : Byte),
    let f := packFrame a d
    (bitsDown f 32).count true = 16 ∧ (bitsDown f 32).count false = 16 ∧
    ((bitsDown f 32).take 16).count true = 8 ∧ ((bitsDown f 32).take 16).count false = 8 ∧
    ((bitsDown f 32).drop 16).count true = 8 ∧ ((bitsDown f 32).drop 16).count false = 8 ∧
    (symbolStream k f).count (.bit1 k) = 16 ∧ (symbolStream k f).count (.bit0 k) = 16 ∧
    duration (sched f) = 68244

/-- R61: `PACK` is injective, its image is the words that satisfy the xor conditions, and two fields invert it. -/
def Obligations.PackIsInvertedByTwoFields : Prop :=
  (∀ a d a' d' : Byte, packFrame a d = packFrame a' d' → a = a' ∧ d = d') ∧
  ∀ f : Frame,
    ((f.extractLsb' 16 8 ^^^ f.extractLsb' 24 8 = 0xFF#8 ∧ f.extractLsb' 0 8 ^^^ f.extractLsb' 8 8 = 0xFF#8) ↔
      ∃ a d : Byte, f = packFrame a d) ∧
    ∀ a d : Byte, f = packFrame a d → f.extractLsb' 24 8 = a ∧ f.extractLsb' 8 8 = d

/-- `PACK` completes on every existing channel: the frame stands on the model's bus (log entry 12), and nothing else
of the state changes. -/
def Obligations.PackWritesTheBusAlone : Prop :=
  ∀ (s : State) (k : Nat) (c : Channel) (a d : Byte), s.channels[k]? = some c →
    exec (.pack k a d) s = .next (s.setChannel k { c with bus := a ++ (~~~a) ++ d ++ (~~~d) })

/-! ### The Pulse serializer: symbols and schedules (`41_pulse_serializer.md`) -/

/-- The five symbols complete on every existing channel: each contributes its intervals to the model's record of the
schedule (log entry 13; the intervals of R65 to R69), `REST` none, and nothing else of the state changes. -/
def Obligations.SymbolsContributeTheirIntervals : Prop :=
  ∀ (s : State) (k : Nat) (c : Channel), s.channels[k]? = some c →
    exec (.lead k) s = .next (s.setChannel k { c with sched := c.sched ++ [⟨.low, 9024⟩, ⟨.high, 4512⟩] }) ∧
    exec (.bit0 k) s = .next (s.setChannel k { c with sched := c.sched ++ [⟨.low, 564⟩, ⟨.high, 564⟩] }) ∧
    exec (.bit1 k) s = .next (s.setChannel k { c with sched := c.sched ++ [⟨.low, 564⟩, ⟨.high, 1692⟩] }) ∧
    exec (.stop k) s = .next (s.setChannel k { c with sched := c.sched ++ [⟨.low, 564⟩] }) ∧
    exec (.rest k) s = .next s

/-- Running the 34 symbols of a word's stream (R44) from an empty record gives `SCHED` of the word, for every 32-bit
word, and changes nothing else. -/
def Obligations.SymbolStreamBuildsTheSchedule : Prop :=
  ∀ (s : State) (k : Nat) (c : Channel) (f : Frame), s.channels[k]? = some c → c.sched = [] →
    execAll (symbolStream k f) s = .next (s.setChannel k { c with sched := sched f }) ∧
    (symbolStream k f).length = 34

/-- R70: `SCHED(f)` interval by interval. -/
def Obligations.ScheduleIntervalByInterval : Prop :=
  ∀ f : Frame,
    (sched f).length = 67 ∧
    (sched f)[0]? = some ⟨.low, 9024⟩ ∧ (sched f)[1]? = some ⟨.high, 4512⟩ ∧
    (∀ j : Nat, j ≤ 31 →
      (sched f)[2 + 2 * j]? = some ⟨.low, 564⟩ ∧
      (sched f)[3 + 2 * j]? = some ⟨.high, if f.getLsbD (31 - j) then 1692 else 564⟩) ∧
    (sched f)[66]? = some ⟨.low, 564⟩

/-- R71: for every word, 67 intervals; strictly alternating levels from LOW to LOW, 34 falling and 34 rising edges of
the waveform between rest levels, and a run-length encoding that gives the intervals back; one mark of 9024 and
thirty-three of 564; the word read back from the spaces; the total duration. -/
def Obligations.ScheduleShape : Prop :=
  ∀ f : Frame,
    (sched f).length = 67 ∧
    (∀ (i : Nat) (iv : Interval), (sched f)[i]? = some iv → iv.level = if i % 2 = 0 then .low else .high) ∧
    fallingEdges (Level.high :: (playOut (sched f) ++ [Level.high])) = 34 ∧
    risingEdges (Level.high :: (playOut (sched f) ++ [Level.high])) = 34 ∧
    runLengths (playOut (sched f)) = sched f ∧
    (markDurations (sched f)).length = 34 ∧ (markDurations (sched f)).count 9024 = 1 ∧
    (markDurations (sched f)).count 564 = 33 ∧
    (∀ j : Nat, j ≤ 31 → (f.getLsbD (31 - j) = true ↔ ((sched f)[3 + 2 * j]?.map Interval.duration) = some 1692)) ∧
    duration (sched f) = 9024 + 4512 + 33 * 564 + 564 * (32 - onesOf f) + 1692 * onesOf f ∧
    duration (sched f) = 50196 + 1128 * onesOf f

/-- R85: the shortest and the longest word, and every packed frame. -/
def Obligations.DurationsOfWords : Prop :=
  duration (sched 0x00000000#32) = 50196 ∧ duration (sched 0xFFFFFFFF#32) = 86292 ∧
  (∀ f : Frame, 50196 ≤ duration (sched f) ∧ duration (sched f) ≤ 86292) ∧
  ∀ a d : Byte, duration (sched (packFrame a d)) = 68244

/-! ### The Pulse serializer: the tick step -/

/-- `U_IDLE` completes on an idle channel with a meaning and without reset, whose pin is HIGH: with `start = 1` it is
the acceptance of the `EMIT` on the ports, with `start = 0` no register changes (R74), nor the model's own bus and
record (log entries 12 and 13). -/
def Obligations.UIdleAcceptsOrRests : Prop :=
  ∀ (s : State) (k : Nat) (c : Channel) (x : Bool), s.channels[k]? = some c → c.ports.rst = false →
    c.regs.wf = true → c.regs.phase = .idle →
    c.regs.out = .high ∧
    ∃ t, exec (.uIdle k x) s = .next t ∧
      (c.ports.start = true →
        exec (.emit k c.ports.address c.ports.command) s = .next t ∧
        ∃ c', t.channels[k]? = some c' ∧
          c'.regs = ⟨.leadMark, packFrame c.ports.address c.ports.command, 32#6, 9024#14⟩) ∧
      (c.ports.start = false → t = s)

/-- R75: `U_LEAD_MARK` completes on a channel with a meaning in `LEAD_MARK` without reset, whose pin is LOW: it
counts, and on the last tick starts `LEAD_SPACE` with 4512. -/
def Obligations.ULeadMarkCountsThenSpaces : Prop :=
  ∀ (s : State) (k : Nat) (c : Channel) (x : Bool), s.channels[k]? = some c → c.ports.rst = false →
    c.regs.wf = true → c.regs.phase = .leadMark →
    c.regs.out = .low ∧
    ∃ t c', exec (.uLeadMark k x) s = .next t ∧ t.channels[k]? = some c' ∧
      (1 < c.regs.timer.toNat → c'.regs = { c.regs with timer := c.regs.timer - 1#14 }) ∧
      (c.regs.timer = 1#14 → c'.regs = { c.regs with phase := .leadSpace, timer := 4512#14 })

/-- R76: `U_LEAD_SPACE` completes on a channel with a meaning in `LEAD_SPACE` without reset, whose pin is HIGH: it
counts, and on the last tick starts the first `BIT_MARK` with 564; `BITCNT` is 32. -/
def Obligations.ULeadSpaceCountsThenMarks : Prop :=
  ∀ (s : State) (k : Nat) (c : Channel) (x : Bool), s.channels[k]? = some c → c.ports.rst = false →
    c.regs.wf = true → c.regs.phase = .leadSpace →
    c.regs.out = .high ∧ c.regs.bitcnt = 32#6 ∧
    ∃ t c', exec (.uLeadSpace k x) s = .next t ∧ t.channels[k]? = some c' ∧
      (1 < c.regs.timer.toNat → c'.regs = { c.regs with timer := c.regs.timer - 1#14 }) ∧
      (c.regs.timer = 1#14 → c'.regs = { c.regs with phase := .bitMark, timer := 564#14 })

/-- R77: `U_BIT_MARK` completes on a channel with a meaning in `BIT_MARK` without reset, whose pin is LOW, with `b`
its `SHREG[31]`: it counts, and on the last tick starts `BIT_SPACE` with 564 for 0 and 1692 for 1. -/
def Obligations.UBitMarkCountsThenChoosesTheSpace : Prop :=
  ∀ (s : State) (k : Nat) (c : Channel) (b : Bool), s.channels[k]? = some c → c.ports.rst = false →
    c.regs.wf = true → c.regs.phase = .bitMark → c.regs.shreg.getLsbD 31 = b →
    c.regs.out = .low ∧
    ∃ t c', exec (.uBitMark k b) s = .next t ∧ t.channels[k]? = some c' ∧
      (1 < c.regs.timer.toNat → c'.regs = { c.regs with timer := c.regs.timer - 1#14 }) ∧
      (c.regs.timer = 1#14 → b = false → c'.regs = { c.regs with phase := .bitSpace, timer := 564#14 }) ∧
      (c.regs.timer = 1#14 → b = true → c'.regs = { c.regs with phase := .bitSpace, timer := 1692#14 })

/-- R78: `U_BIT_SPACE` completes on a channel with a meaning in `BIT_SPACE` without reset, whose pin is HIGH: it
counts, and on the last tick shifts `SHREG`, counts `BITCNT` down, and starts `STOP_MARK` if `BITCNT` was 1 (then
`SHREG` and `BITCNT` are 0) and `BIT_MARK` otherwise, with 564. -/
def Obligations.UBitSpaceCountsThenShifts : Prop :=
  ∀ (s : State) (k : Nat) (c : Channel) (x : Bool), s.channels[k]? = some c → c.ports.rst = false →
    c.regs.wf = true → c.regs.phase = .bitSpace →
    c.regs.out = .high ∧
    ∃ t c', exec (.uBitSpace k x) s = .next t ∧ t.channels[k]? = some c' ∧
      (1 < c.regs.timer.toNat → c'.regs = { c.regs with timer := c.regs.timer - 1#14 }) ∧
      (c.regs.timer = 1#14 → c.regs.bitcnt = 1#6 →
        c'.regs = ⟨.stopMark, c.regs.shreg <<< 1, c.regs.bitcnt - 1#6, 564#14⟩ ∧ c'.regs.shreg = 0#32 ∧
          c'.regs.bitcnt = 0#6) ∧
      (c.regs.timer = 1#14 → c.regs.bitcnt ≠ 1#6 →
        c'.regs = ⟨.bitMark, c.regs.shreg <<< 1, c.regs.bitcnt - 1#6, 564#14⟩)

/-- R79: `U_STOP_MARK` completes on a channel with a meaning in `STOP_MARK` without reset, whose pin is LOW: it
counts, and after the last tick the channel is in the canonical idle state, with the pin HIGH, ready for a command. -/
def Obligations.UStopMarkCountsThenIdles : Prop :=
  ∀ (s : State) (k : Nat) (c : Channel) (x : Bool), s.channels[k]? = some c → c.ports.rst = false →
    c.regs.wf = true → c.regs.phase = .stopMark →
    c.regs.out = .low ∧
    ∃ t c', exec (.uStopMark k x) s = .next t ∧ t.channels[k]? = some c' ∧
      (1 < c.regs.timer.toNat → c'.regs = { c.regs with timer := c.regs.timer - 1#14 }) ∧
      (c.regs.timer = 1#14 →
        c'.regs = ⟨.idle, 0#32, 0#6, 0#14⟩ ∧ c'.regs.out = .high ∧ c'.regs.ready = true)

/-- R80: from the acceptance tick of a command on an idle channel, with no reset up to `t0 + DUR(f)`, for `f` the
frame of the command on the ports: (a) in tick `t0 + j`, `1 ≤ j ≤ DUR(f)`, the channel has the position, the level and
the `TIMER` that `SCHED(f)` gives that tick, and is busy; (b) in tick `t0 + DUR(f) + 1` it is `(IDLE, 0, 0, 0)`, not
busy. Whatever the program drives on the other ports, and whatever the other channels do, as long as each starts with
a meaning and no line names a missing channel. -/
def Obligations.EmitPlaysItsSchedule : Prop :=
  ∀ (s : State) (k : Nat) (c : Channel),
    let f := packFrame c.ports.address c.ports.command
    s.wf = true → s.channels[k]? = some c → c.regs.phase = .idle → c.ports.start = true →
    s.noResetWithin k (duration (sched f) + 1) = true → s.pinsValidWithin (duration (sched f) + 1) = true →
    (∀ j : Nat, 1 ≤ j → j ≤ duration (sched f) →
      ∃ t c', steps j s = .next t ∧ t.channels[k]? = some c' ∧ c'.regs.busy = true ∧
        intervalAt (sched f) (j - 1) =
          c'.regs.interval.map fun i => (i, c'.regs.out, c'.regs.timer.toNat)) ∧
    ∃ t c', steps (duration (sched f) + 1) s = .next t ∧ t.channels[k]? = some c' ∧
      c'.regs = ⟨.idle, 0#32, 0#6, 0#14⟩ ∧ c'.regs.busy = false

/-- The same agreement for the serializer on its own (R72, R86), for every 32-bit word: from the tick after the load
strobe (in a system whose channels have a meaning, with no reset and no line for a missing channel) the channel plays
`SCHED` of the word and then is idle. -/
def Obligations.SerializerPlaysEveryWord : Prop :=
  ∀ (s : State) (k : Nat) (c : Channel) (f : Frame),
    s.wf = true → s.channels[k]? = some c → c.regs = ⟨.leadMark, f, 32#6, 9024#14⟩ →
    s.noResetWithin k (duration (sched f)) = true → s.pinsValidWithin (duration (sched f)) = true →
    (∀ j : Nat, j < duration (sched f) →
      ∃ t c', steps j s = .next t ∧ t.channels[k]? = some c' ∧
        intervalAt (sched f) j = c'.regs.interval.map fun i => (i, c'.regs.out, c'.regs.timer.toNat)) ∧
    ∃ t c', steps (duration (sched f)) s = .next t ∧ t.channels[k]? = some c' ∧
      c'.regs = ⟨.idle, 0#32, 0#6, 0#14⟩

/-- R82 and R40: in flight and without reset, what a channel's registers become does not depend on what its `start`,
`address` and `command` ports hold. -/
def Obligations.TransmissionIgnoresItsPorts : Prop :=
  ∀ (s : State) (k : Nat) (c : Channel) (p : Ports), s.channels[k]? = some c → c.regs.busy = true →
    c.ports.rst = false → p.rst = false →
    ∀ t, step s = .next t → step (s.setChannel k { c with ports := p }) = .next t

/-- R84: no decrement wraps. On a channel with a meaning, a tick that counts lowers `TIMER` by exactly one from at
least 2, and a tick that ends a `BIT_SPACE` lowers `BITCNT` by exactly one from at least 1. -/
def Obligations.CountersNeverWrap : Prop :=
  ∀ (s t : State) (k : Nat) (c c' : Channel), step s = .next t → s.channels[k]? = some c →
    t.channels[k]? = some c' → c.ports.rst = false → c.regs.phase ≠ .idle →
    (1 < c.regs.timer.toNat → c'.regs.timer.toNat + 1 = c.regs.timer.toNat ∧ c'.regs.bitcnt = c.regs.bitcnt) ∧
    (c.regs.timer.toNat = 1 → c.regs.phase = .bitSpace → c'.regs.bitcnt.toNat + 1 = c.regs.bitcnt.toNat) ∧
    (c.regs.timer.toNat = 1 → c.regs.phase ≠ .bitSpace → c'.regs.bitcnt = c.regs.bitcnt) ∧
    1 ≤ c.regs.timer.toNat

/-! ### The command level (`42_emit.md`) -/

/-- `EMIT` completes on an idle channel with a meaning and without reset (R87): the four registers are loaded, the pin
goes from HIGH to LOW; the model's bus is consumed and its record begins (log entries 12 and 13); nothing else
changes. -/
def Obligations.EmitLoadsAnIdleChannel : Prop :=
  ∀ (s : State) (k : Nat) (c : Channel) (a d : Byte), s.channels[k]? = some c → c.ports.rst = false →
    c.regs.wf = true → c.regs.phase = .idle →
    exec (.emit k a d) s =
      .next (s.setChannel k
        { c with regs := ⟨.leadMark, packFrame a d, 32#6, 9024#14⟩, bus := 0#32, sched := [] }) ∧
    c.regs.out = .high ∧ (Regs.out ⟨.leadMark, packFrame a d, 32#6, 9024#14⟩) = .low

/-- `NOP` completes. On an idle channel with a meaning and without reset nothing changes and the pin is HIGH; on a busy
one it is what `EMIT` of any operands is, and what the micro-operation its registers select is: the transmission
advances by one tick. Its own two bytes do not matter (R88). What holds of the registers and the pin is the rule's;
that it holds of the model's own bus and record too is the model's choice (log entries 12 and 13). -/
def Obligations.NopRestsOrLetsTheTransmissionAdvance : Prop :=
  ∀ (s : State) (k : Nat) (c : Channel) (x y x' y' a d : Byte), s.channels[k]? = some c → c.ports.rst = false →
    c.regs.wf = true →
    exec (.nop k x y) s = exec (.nop k x' y') s ∧
    (c.regs.phase = .idle → exec (.nop k x y) s = .next s ∧ c.regs.out = .high) ∧
    (c.regs.phase ≠ .idle →
      exec (.nop k x y) s = exec (.emit k a d) s ∧
      ∃ i t, decode k (.uop (uopWord c.regs.phase.code c.regs.dataBit)) = .ok i ∧
        exec i s = .next t ∧ exec (.nop k x y) s = .next t)

/-- R90: a run of one `EMIT` from an idle channel, without reset (in a system whose channels have a meaning, with no
line for a missing channel), ends at `t0 + 68245`, the first later tick that is not busy: busy in exactly the ticks
`t0 + 1` to `t0 + 68244`, whatever the operands; its schedule has 67 intervals and lasts 68244 ticks, which is `121
T`; at its end the channel is idle and ready, the pin HIGH. -/
def Obligations.EveryEmitTakes68244Ticks : Prop :=
  ∀ (s : State) (k : Nat) (c : Channel), s.wf = true → s.channels[k]? = some c → c.regs.phase = .idle →
    c.ports.start = true → s.noResetWithin k 68245 = true → s.pinsValidWithin 68245 = true →
    (∀ j : Nat, j ≤ 68245 → ∃ t, steps j s = .next t ∧ t.busyOf k = some (decide (1 ≤ j ∧ j ≤ 68244))) ∧
    (∃ t c', steps 68245 s = .next t ∧ t.channels[k]? = some c' ∧ c'.regs = ⟨.idle, 0#32, 0#6, 0#14⟩ ∧
      c'.regs.out = .high ∧ c'.regs.ready = true) ∧
    (emitSched c.ports.address c.ports.command).length = 67 ∧
    duration (emitSched c.ports.address c.ports.command) = 68244 ∧ 68244 = 121 * Config.timeUnit

/-- R89 through the observation of R12, in such a run: the waveform of the accepting channel is HIGH in the acceptance
tick; from the next tick on it is a list of levels whose run-length encoding is `EMITSCHED(address, command)`; and in
the first tick after it, it is HIGH again. At that tick the model's record is that schedule too (log entry 13). -/
def Obligations.WaveformOfAnEmitIsItsSchedule : Prop :=
  ∀ (s : State) (k : Nat) (c : Channel), s.wf = true → s.channels[k]? = some c → c.regs.phase = .idle →
    c.ports.start = true → s.noResetWithin k 68245 = true → s.pinsValidWithin 68245 = true →
    waveform s k 0 = some .high ∧ waveform s k 68245 = some .high ∧
    (∃ w : List Level, w.length = 68244 ∧ (∀ j : Nat, j < 68244 → waveform s k (j + 1) = w[j]?) ∧
      runLengths w = emitSched c.ports.address c.ports.command) ∧
    ∃ t c', steps 68245 s = .next t ∧ t.channels[k]? = some c' ∧
      c'.sched = emitSched c.ports.address c.ports.command

/-- The blocking call of R92 on a system whose channels have a meaning. (1) On a busy or a missing channel it does not
proceed. (2) On an idle one, with no reset and no line for a missing channel within the run, it drives `start = 1`
with the two bytes in `t0`; (3) from then on `start` is 0; (4) it returns at `t0 + 68245`, the first tick that is not
busy, with the channel idle. The bound `n` within which the model watches the call is its own (log entry 20). -/
def Obligations.BlockingCallReturnsAtTheFirstIdleTick : Prop :=
  (∀ (s : State) (e : EmitCall) (n : Nat), s.channels.length ≤ e.pin → e.call n s = none) ∧
  ∀ (s : State) (e : EmitCall) (c : Channel), s.wf = true → s.channels[e.pin]? = some c →
    (c.regs.busy = true → ∀ n : Nat, e.call n s = none) ∧
    (c.regs.busy = false → s.noResetWithin e.pin 68245 = true → s.pinsValidWithin 68245 = true →
      (e.present s).channels[e.pin]? = some { c with ports := ⟨false, true, e.address, e.command⟩ } ∧
      (∀ j : Nat, 1 ≤ j → j ≤ 68245 → ∃ u d, steps j (e.present s) = .next u ∧ u.channels[e.pin]? = some d ∧
        d.ports.start = false ∧ d.regs.busy = decide (j ≤ 68244)) ∧
      ∃ t c', steps 68245 (e.present s) = .next t ∧ t.tick = s.tick + 68245 ∧ t.channels[e.pin]? = some c' ∧
        c'.regs = ⟨.idle, 0#32, 0#6, 0#14⟩ ∧ ∀ n : Nat, e.call n s = if 68245 ≤ n then some t else none)

/-- A model refuses an `emit` on a channel that does not exist (R93, R101). In this model (log entry 5, DEDUCED) every
operation at such a channel is refused by name, `RESET`, `PACK`, the symbols and the micro-operations among them, and
so is the whole step in whose tick the program has a line for one. -/
def Obligations.MissingChannelIsRefused : Prop :=
  (∀ (s : State) (i : Instr), s.channels.length ≤ i.pin → exec i s = .refused .noSuchPin) ∧
  ∀ (s : State) (l : Line), l ∈ s.program → l.tick = s.tick → s.channels.length ≤ l.chan →
    step s = .refused .noSuchPin

/-- R94: in two such runs, two commands with the same operands, on any channels of any systems at any times, give the
same waveform over the whole run. -/
def Obligations.EmitIsIdempotent : Prop :=
  ∀ (s₁ s₂ : State) (k₁ k₂ : Nat) (c₁ c₂ : Channel),
    s₁.wf = true → s₂.wf = true → s₁.channels[k₁]? = some c₁ → s₂.channels[k₂]? = some c₂ →
    c₁.regs.phase = .idle → c₂.regs.phase = .idle → c₁.ports.start = true → c₂.ports.start = true →
    c₁.ports.address = c₂.ports.address → c₁.ports.command = c₂.ports.command →
    s₁.noResetWithin k₁ 68245 = true → s₂.noResetWithin k₂ 68245 = true →
    s₁.pinsValidWithin 68245 = true → s₂.pinsValidWithin 68245 = true →
    ∀ j : Nat, j ≤ 68245 → waveform s₁ k₁ j = waveform s₂ k₂ j ∧ (waveform s₁ k₁ j).isSome

/-- R95: a command on the port in the first idle tick `t0 + 68245` of a run, as the program drives it (log entry 10),
is accepted in that tick: the pin is LOW in the tick before it, HIGH in that one tick, and LOW in the next, with the
new frame loaded. -/
def Obligations.BackToBackCommandsAreOneTickApart : Prop :=
  ∀ (s : State) (k : Nat) (c : Channel), s.wf = true → s.channels[k]? = some c → c.regs.phase = .idle →
    c.ports.start = true → s.noResetWithin k 68246 = true → s.pinsValidWithin 68246 = true →
    (portsAt s.program (s.tick + 68245) k).start = true →
    waveform s k 68244 = some .low ∧ waveform s k 68245 = some .high ∧ waveform s k 68246 = some .low ∧
    ∃ t c', steps 68246 s = .next t ∧ t.channels[k]? = some c' ∧
      c'.regs = ⟨.leadMark, packFrame (portsAt s.program (s.tick + 68245) k).address
        (portsAt s.program (s.tick + 68245) k).command, 32#6, 9024#14⟩

/-- R96: `start = 1` on a channel in flight, without reset, is a breach of the caller's duty (R91 H4, R101), and the
hardware goes on as if `start` were 0: the step completes with the very state it would have with the port at rest. -/
def Obligations.StartWhileBusyIsIgnoredAndNoted : Prop :=
  ∀ (s : State) (k : Nat) (c : Channel), s.wf = true → s.addressesNoChannel = false →
    s.channels[k]? = some c → c.regs.busy = true → c.ports.rst = false → c.ports.start = true →
    s.breach = some .startWhileBusy ∧
    ∃ t, step s = .next t ∧
      step (s.setChannel k { c with ports := { c.ports with start := false } }) = .next t

/-! ### Exceptions and simultaneous events (`60_exceptions.md`) -/

/-- R99: no step lacks a successor on states with a meaning: a step of a system whose channels all have one, in a tick
whose program addresses no missing channel, answers a next state, whatever the inputs. -/
def Obligations.StepAnswersNext : Prop :=
  ∀ s : State, s.wf = true → s.addressesNoChannel = false → ∃ t, step s = .next t

/-! ### Reset (`70_reset_and_hazards.md`) -/

/-- `RESET` completes from every state, with a meaning or not: the four registers take their reset values; with
`rst = 1` on the port, `EMIT` and `NOP` of any operands are `RESET`, and a step leaves the reset values (R114). Nothing
else of the state changes: that the model's own bus and record survive is the model's choice (log entries 12 and 13).
-/
def Obligations.ResetClearsFromEveryState : Prop :=
  ∀ (s : State) (k : Nat) (c : Channel) (a d : Byte), s.channels[k]? = some c →
    exec (.reset k) s = .next (s.setChannel k { c with regs := ⟨.idle, 0#32, 0#6, 0#14⟩ }) ∧
    (c.ports.rst = true →
      exec (.emit k a d) s = exec (.reset k) s ∧ exec (.nop k a d) s = exec (.reset k) s ∧
      ∀ t c', step s = .next t → t.channels[k]? = some c' → c'.regs = ⟨.idle, 0#32, 0#6, 0#14⟩)

/-- R115: after a step with `rst = 1` on a channel's port its pin is HIGH, it is not busy, and the model's record
keeps the symbols completed before and gains none (log entry 13). -/
def Obligations.ResetCutsTheTransmissionShort : Prop :=
  ∀ (s t : State) (k : Nat) (c c' : Channel), step s = .next t → s.channels[k]? = some c →
    t.channels[k]? = some c' → c.ports.rst = true →
    c'.regs.out = .high ∧ c'.regs.busy = false ∧ c'.sched = c.sched

/-! ### Frames, refusals, and the step -/

/-- FRAME: whatever operation runs and answers next, the tick, the program, the number of channels, every other
channel and the channel's own ports are unchanged (tick and program are the model's own, log entries 11 and 10). -/
def Obligations.OperationsTouchOneChannel : Prop :=
  ∀ (i : Instr) (s t : State), exec i s = .next t →
    t.tick = s.tick ∧ t.program = s.program ∧ t.channels.length = s.channels.length ∧
    (∀ j : Nat, j ≠ i.pin → t.channels[j]? = s.channels[j]?) ∧
    ∀ c c' : Channel, s.channels[i.pin]? = some c → t.channels[i.pin]? = some c' → c'.ports = c.ports

/-- FRAME: `PACK` and the five symbols write no register. -/
def Obligations.PackAndSymbolsKeepTheRegisters : Prop :=
  ∀ (k : Nat) (a d : Byte) (i : Instr) (s t : State),
    i ∈ [.pack k a d, .lead k, .bit0 k, .bit1 k, .stop k, .rest k] → exec i s = .next t →
    ∀ (j : Nat) (c : Channel), s.channels[j]? = some c → ∃ c', t.channels[j]? = some c' ∧ c'.regs = c.regs

/-- FRAME: a micro-operation of a busy channel writes no register but `TIMER` while `TIMER > 1` (R73), and on the last
tick only `U_BIT_SPACE` writes `SHREG` and `BITCNT`; none writes the model's bus, nor its record before the last tick
(log entries 12 and 13). -/
def Obligations.MicroOpsKeepWhatTheyDoNotWrite : Prop :=
  ∀ (k : Nat) (x : Bool) (i : Instr) (s t : State) (c c' : Channel),
    i ∈ [.uLeadMark k x, .uLeadSpace k x, .uBitMark k x, .uBitSpace k x, .uStopMark k x] →
    exec i s = .next t → s.channels[k]? = some c → t.channels[k]? = some c' →
    c'.bus = c.bus ∧
    (1 < c.regs.timer.toNat →
      c'.regs.phase = c.regs.phase ∧ c'.regs.shreg = c.regs.shreg ∧ c'.regs.bitcnt = c.regs.bitcnt ∧
        c'.sched = c.sched) ∧
    (i ≠ .uBitSpace k x → c'.regs.shreg = c.regs.shreg ∧ c'.regs.bitcnt = c.regs.bitcnt)

/-- The model's record (log entry 13): on the last tick of its interval, a micro-operation that ends a symbol adds
that symbol's intervals (those of R65 to R68), and one that ends a mark with a space to follow adds nothing. -/
def Obligations.CompletedSymbolsAreRecorded : Prop :=
  ∀ (k : Nat) (x : Bool) (i : Instr) (s t : State) (c c' : Channel),
    exec i s = .next t → s.channels[k]? = some c → t.channels[k]? = some c' → c.regs.timer = 1#14 →
    (i = .uLeadMark k x → c'.sched = c.sched) ∧
    (i = .uLeadSpace k x → c'.sched = c.sched ++ [⟨.low, 9024⟩, ⟨.high, 4512⟩]) ∧
    (i = .uBitMark k x → c'.sched = c.sched) ∧
    (i = .uBitSpace k x →
      c'.sched = c.sched ++ [⟨.low, 564⟩, ⟨.high, if c.regs.shreg.getLsbD 31 then 1692 else 564⟩]) ∧
    (i = .uStopMark k x → c'.sched = c.sched ++ [⟨.low, 564⟩])

/-- The model's choice (log entry 7): a micro-operation whose phase the channel is not in, or on a channel whose `rst`
is 1, or `U_BIT_MARK` with another bit than `SHREG[31]`, is refused by name. -/
def Obligations.UnselectedMicroOpsAreRefused : Prop :=
  ∀ (s : State) (k : Nat) (c : Channel) (x : Bool), s.channels[k]? = some c →
    (c.ports.rst = true ∨ c.regs.phase ≠ .idle → exec (.uIdle k x) s = .refused .notSelected) ∧
    (c.ports.rst = true ∨ c.regs.phase ≠ .leadMark → exec (.uLeadMark k x) s = .refused .notSelected) ∧
    (c.ports.rst = true ∨ c.regs.phase ≠ .leadSpace → exec (.uLeadSpace k x) s = .refused .notSelected) ∧
    (c.ports.rst = true ∨ c.regs.phase ≠ .bitMark ∨ c.regs.shreg.getLsbD 31 ≠ x →
      exec (.uBitMark k x) s = .refused .notSelected) ∧
    (c.ports.rst = true ∨ c.regs.phase ≠ .bitSpace → exec (.uBitSpace k x) s = .refused .notSelected) ∧
    (c.ports.rst = true ∨ c.regs.phase ≠ .stopMark → exec (.uStopMark k x) s = .refused .notSelected)

/-- R30 (log entry 6): on registers to which the spec gives no meaning, without reset, `EMIT`, `NOP` and the step of
the system are refused by name. -/
def Obligations.UnreachableRegistersAreRefused : Prop :=
  ∀ (s : State) (k : Nat) (c : Channel) (a d : Byte), s.channels[k]? = some c → c.regs.wf = false →
    c.ports.rst = false →
    exec (.emit k a d) s = .refused .unreachableState ∧ exec (.nop k a d) s = .refused .unreachableState ∧
    (s.addressesNoChannel = false → (∀ (j : Nat) (e : Channel), j < k → s.channels[j]? = some e → e.regs.wf = true) →
      step s = .refused .unreachableState)

/-- A step runs the decoded operation. In a system of one channel the step is the operation its select word decodes
to, and then the next tick begins; in every system each channel ends the step as its own operation leaves it, with the
next tick's ports, which the model's program drives (log entries 10 and 15). -/
def Obligations.StepRunsTheDecodedOperation : Prop :=
  (∀ (s : State) (c : Channel) (i : Instr), s.channels = [c] → s.addressesNoChannel = false →
    decode 0 c.selectWord = .ok i → step s = andThen (exec i s) fun t => .next t.nextTick) ∧
  ∀ (s t : State) (k : Nat) (c : Channel) (i : Instr), step s = .next t → s.channels[k]? = some c →
    decode k c.selectWord = .ok i →
    ∃ u c', exec i s = .next u ∧ u.channels[k]? = some c' ∧
      t.channels[k]? = some { c' with ports := portsAt s.program (s.tick + 1) k }

/-- Without reset, the operation that a channel's CMD word decodes to has the very effect of the micro-operation that
its registers select, idle or busy (R74, R88, R96), on the model's own bus and record too (log entries 12 and 13):
both descriptions of the tick are one. Which of them a step runs is the statement before this one. -/
def Obligations.PresentedCommandIsTheSelectedOperation : Prop :=
  ∀ (s : State) (k : Nat) (c : Channel) (i j : Instr), s.channels[k]? = some c → c.ports.rst = false →
    decode k c.cmdCode = .ok i → decode k c.selectWord = .ok j → exec i s = exec j s

/-- R73 and R103: the step of a channel, arm by arm, in the order the rules choose them: `rst` over everything;
otherwise `start` in `IDLE` alone; otherwise the transmission advances, and `start` is not looked at. -/
def Obligations.EachChannelStepsByItsPhase : Prop :=
  ∀ (s t : State) (k : Nat) (c c' : Channel), step s = .next t → s.channels[k]? = some c →
    t.channels[k]? = some c' →
    c'.regs =
      if c.ports.rst = true then ⟨.idle, 0#32, 0#6, 0#14⟩
      else if c.regs.phase = .idle then
        if c.ports.start = true then ⟨.leadMark, packFrame c.ports.address c.ports.command, 32#6, 9024#14⟩
        else c.regs
      else if 1 < c.regs.timer.toNat then { c.regs with timer := c.regs.timer - 1#14 }
      else
        match c.regs.phase with
        | .idle => c.regs
        | .leadMark => { c.regs with phase := .leadSpace, timer := 4512#14 }
        | .leadSpace => { c.regs with phase := .bitMark, timer := 564#14 }
        | .bitMark =>
          { c.regs with phase := .bitSpace, timer := if c.regs.shreg.getLsbD 31 then 1692#14 else 564#14 }
        | .bitSpace =>
          ⟨if c.regs.bitcnt = 1#6 then .stopMark else .bitMark, c.regs.shreg <<< 1, c.regs.bitcnt - 1#6, 564#14⟩
        | .stopMark => { c.regs with phase := .idle, timer := 0#14 }
end

