-- ==== Sys2Proof/Laws/Operands.lean ====
section
/-! SUPPORT. The bits of a packed frame and of the words of the formats CMD and UOP. -/

namespace Sys2Proof

/-- Each bit of a packed frame is a bit of one of its four bytes (R42, R57). -/
theorem packFrame_getLsbD (a d : Byte) (i : Nat) :
    (packFrame a d).getLsbD i =
      if i < 8 then (not8 d).getLsbD i
      else if i < 16 then d.getLsbD (i - 8)
      else if i < 24 then (not8 a).getLsbD (i - 16)
      else a.getLsbD (i - 24) := by
  have h1 := BitVec.getLsbD_append (x := a) (y := not8 a) (i := i - 16)
  have h2 := BitVec.getLsbD_append (x := a ++ not8 a) (y := d) (i := i - 8)
  have h3 := BitVec.getLsbD_append (x := a ++ not8 a ++ d) (y := not8 d) (i := i)
  unfold packFrame
  rw [h3]
  by_cases c1 : i < 8
  · simp [c1]
  rw [if_neg c1, h2]
  by_cases c2 : i < 16
  · simp [c1, c2, show i - 8 < 8 by omega]
  rw [show i - 8 - 8 = i - 16 by omega, h1]
  by_cases c3 : i < 24
  · simp [c1, c2, c3, show ¬ i - 8 < 8 by omega, show i - 16 < 8 by omega]
  simp [c1, c2, c3, show ¬ i - 8 < 8 by omega, show ¬ i - 16 < 8 by omega, show i - 16 - 8 = i - 24 by omega]

/-- The guard byte's bits are the complements (R47). -/
theorem not8_getLsbD (x : Byte) {i : Nat} (h : i < 8) : (not8 x).getLsbD i = !x.getLsbD i := by
  simp [not8, h]

/-- Each bit of a CMD word (R43). -/
theorem cmdWord_getLsbD (b : Bool) (a d : Byte) (i : Nat) :
    (cmdWord b a d).getLsbD i =
      if i < 8 then d.getLsbD i else if i < 16 then a.getLsbD (i - 8) else (decide (i = 16) && b) := by
  have h1 := BitVec.getLsbD_append (x := BitVec.ofBool b) (y := a) (i := i - 8)
  have h2 := BitVec.getLsbD_append (x := BitVec.ofBool b ++ a) (y := d) (i := i)
  unfold cmdWord
  rw [h2]
  by_cases c1 : i < 8
  · simp [c1]
  rw [if_neg c1, h1]
  by_cases c2 : i < 16
  · simp [c1, c2, show i - 8 < 8 by omega]
  by_cases c3 : i = 16
  · subst c3; cases b <;> rfl
  · rw [if_neg (by omega), if_neg c1, if_neg c2]
    simp only [c3, decide_false, Bool.false_and]
    exact BitVec.getLsbD_of_ge _ _ (by omega)

end Sys2Proof
end

