-- ==== Sys2Proof/Laws/State.lean ====
section
/-! SUPPORT. One lemma per field per update of the state, the channel and the registers. -/

namespace Sys2Proof.Machine

/-! ### The system -/

@[simp] theorem State.setChannel_channels (s : State) (k : Nat) (c : Channel) :
    (s.setChannel k c).channels = s.channels.set k c := rfl
@[simp] theorem State.setChannel_tick (s : State) (k : Nat) (c : Channel) : (s.setChannel k c).tick = s.tick := rfl
@[simp] theorem State.setChannel_program (s : State) (k : Nat) (c : Channel) :
    (s.setChannel k c).program = s.program := rfl
/-- Writing a channel back unchanged changes nothing. -/
theorem State.setChannel_self {s : State} {k : Nat} {c : Channel} (h : s.channels[k]? = some c) :
    s.setChannel k c = s := by
  obtain ⟨hlt, rfl⟩ := List.getElem?_eq_some_iff.1 h
  simp [State.setChannel]

@[simp] theorem State.drivePorts_tick (s : State) : s.drivePorts.tick = s.tick := rfl
@[simp] theorem State.drivePorts_program (s : State) : s.drivePorts.program = s.program := rfl
@[simp] theorem State.nextTick_tick (s : State) : s.nextTick.tick = s.tick + 1 := rfl
@[simp] theorem State.nextTick_program (s : State) : s.nextTick.program = s.program := rfl

@[simp] theorem State.drivePorts_getElem? (s : State) (k : Nat) :
    s.drivePorts.channels[k]? = s.channels[k]?.map fun c => { c with ports := portsAt s.program s.tick k } := by
  simp [State.drivePorts]

@[simp] theorem State.nextTick_getElem? (s : State) (k : Nat) :
    s.nextTick.channels[k]? = s.channels[k]?.map fun c => { c with ports := portsAt s.program (s.tick + 1) k } := by
  simp [State.nextTick]

@[simp] theorem State.nextTick_length (s : State) : s.nextTick.channels.length = s.channels.length := by
  simp [State.nextTick, State.drivePorts]

/-! ### The channel -/

@[simp] theorem Channel.contribute_regs (c : Channel) (ivs : List Interval) : (c.contribute ivs).regs = c.regs := rfl
@[simp] theorem Channel.contribute_ports (c : Channel) (ivs : List Interval) : (c.contribute ivs).ports = c.ports := rfl
@[simp] theorem Channel.contribute_bus (c : Channel) (ivs : List Interval) : (c.contribute ivs).bus = c.bus := rfl
@[simp] theorem Channel.contribute_sched (c : Channel) (ivs : List Interval) :
    (c.contribute ivs).sched = c.sched ++ ivs := rfl
@[simp] theorem Channel.contribute_nil (c : Channel) : c.contribute [] = c := by
  simp [Channel.contribute]
@[simp] theorem Channel.addRest_eq (c : Channel) : c.addRest = c := c.contribute_nil
@[simp] theorem Channel.addLead_regs (c : Channel) : c.addLead.regs = c.regs := rfl
@[simp] theorem Channel.addLead_ports (c : Channel) : c.addLead.ports = c.ports := rfl
@[simp] theorem Channel.addLead_bus (c : Channel) : c.addLead.bus = c.bus := rfl
@[simp] theorem Channel.addLead_sched (c : Channel) : c.addLead.sched = c.sched ++ leadIntervals := rfl
@[simp] theorem Channel.addBit_regs (c : Channel) (b : Bool) : (c.addBit b).regs = c.regs := rfl
@[simp] theorem Channel.addBit_ports (c : Channel) (b : Bool) : (c.addBit b).ports = c.ports := rfl
@[simp] theorem Channel.addBit_bus (c : Channel) (b : Bool) : (c.addBit b).bus = c.bus := rfl
@[simp] theorem Channel.addBit_sched (c : Channel) (b : Bool) : (c.addBit b).sched = c.sched ++ bitIntervals b := rfl
@[simp] theorem Channel.addStop_regs (c : Channel) : c.addStop.regs = c.regs := rfl
@[simp] theorem Channel.addStop_ports (c : Channel) : c.addStop.ports = c.ports := rfl
@[simp] theorem Channel.addStop_bus (c : Channel) : c.addStop.bus = c.bus := rfl
@[simp] theorem Channel.addStop_sched (c : Channel) : c.addStop.sched = c.sched ++ stopIntervals := rfl

@[simp] theorem Channel.evalPacker_regs (c : Channel) (a d : Byte) : (c.evalPacker a d).regs = c.regs := rfl
@[simp] theorem Channel.evalPacker_ports (c : Channel) (a d : Byte) : (c.evalPacker a d).ports = c.ports := rfl
@[simp] theorem Channel.evalPacker_bus (c : Channel) (a d : Byte) : (c.evalPacker a d).bus = packFrame a d := rfl
@[simp] theorem Channel.evalPacker_sched (c : Channel) (a d : Byte) : (c.evalPacker a d).sched = c.sched := rfl

@[simp] theorem Channel.accept_regs (c : Channel) (a d : Byte) :
    (c.accept a d).regs = Regs.loaded (packFrame a d) := rfl
@[simp] theorem Channel.accept_ports (c : Channel) (a d : Byte) : (c.accept a d).ports = c.ports := rfl
@[simp] theorem Channel.accept_bus (c : Channel) (a d : Byte) : (c.accept a d).bus = 0#32 := rfl
@[simp] theorem Channel.accept_sched (c : Channel) (a d : Byte) : (c.accept a d).sched = [] := rfl

@[simp] theorem Channel.clear_regs (c : Channel) : c.clear.regs = Regs.idle := rfl
@[simp] theorem Channel.clear_ports (c : Channel) : c.clear.ports = c.ports := rfl
@[simp] theorem Channel.clear_bus (c : Channel) : c.clear.bus = c.bus := rfl
@[simp] theorem Channel.clear_sched (c : Channel) : c.clear.sched = c.sched := rfl

@[simp] theorem Channel.count_regs (c : Channel) : c.count.regs = c.regs.count := rfl
@[simp] theorem Channel.count_ports (c : Channel) : c.count.ports = c.ports := rfl
@[simp] theorem Channel.count_bus (c : Channel) : c.count.bus = c.bus := rfl
@[simp] theorem Channel.count_sched (c : Channel) : c.count.sched = c.sched := rfl

/-! ### The registers -/

@[simp] theorem Regs.count_phase (r : Regs) : r.count.phase = r.phase := rfl
@[simp] theorem Regs.count_shreg (r : Regs) : r.count.shreg = r.shreg := rfl
@[simp] theorem Regs.count_bitcnt (r : Regs) : r.count.bitcnt = r.bitcnt := rfl
@[simp] theorem Regs.count_timer (r : Regs) : r.count.timer = r.timer - 1#14 := rfl
@[simp] theorem Regs.startInterval_phase (r : Regs) (p : Phase) (d : Nat) : (r.startInterval p d).phase = p := rfl
@[simp] theorem Regs.startInterval_shreg (r : Regs) (p : Phase) (d : Nat) :
    (r.startInterval p d).shreg = r.shreg := rfl
@[simp] theorem Regs.startInterval_bitcnt (r : Regs) (p : Phase) (d : Nat) :
    (r.startInterval p d).bitcnt = r.bitcnt := rfl
@[simp] theorem Regs.startInterval_timer (r : Regs) (p : Phase) (d : Nat) :
    (r.startInterval p d).timer = timerOf d := rfl
@[simp] theorem Regs.shiftOut_phase (r : Regs) : r.shiftOut.phase = r.phase := rfl
@[simp] theorem Regs.shiftOut_shreg (r : Regs) : r.shiftOut.shreg = r.shreg <<< 1 := rfl
@[simp] theorem Regs.shiftOut_bitcnt (r : Regs) : r.shiftOut.bitcnt = r.bitcnt - 1#6 := rfl
@[simp] theorem Regs.shiftOut_timer (r : Regs) : r.shiftOut.timer = r.timer := rfl
@[simp] theorem Regs.loaded_phase (f : Frame) : (Regs.loaded f).phase = .leadMark := rfl
@[simp] theorem Regs.loaded_shreg (f : Frame) : (Regs.loaded f).shreg = f := rfl
@[simp] theorem Regs.loaded_bitcnt (f : Frame) : (Regs.loaded f).bitcnt = 32#6 := rfl
@[simp] theorem Regs.loaded_timer (f : Frame) : (Regs.loaded f).timer = 9024#14 := rfl
@[simp] theorem Regs.idle_phase : Regs.idle.phase = .idle := rfl
@[simp] theorem Regs.idle_wf : Regs.idle.wf = true := rfl

/-- `TIMER` counts without wrap-around (R20, R84). -/
theorem Regs.count_timer_toNat (r : Regs) (h : r.counting = true) : r.count.timer.toNat = r.timer.toNat - 1 := by
  have h1 : 1 < r.timer.toNat := by simpa [Regs.counting] using h
  simp only [Regs.count, BitVec.toNat_sub, BitVec.toNat_ofNat]
  have := r.timer.isLt
  omega

/-- The six codes of `PHASE` are distinct (R17). -/
theorem Phase.code_injective (p q : Phase) (h : p.code = q.code) : p = q := by
  revert h
  cases p <;> cases q <;> decide

/-- `busy` is 0 in `IDLE` alone (R24). -/
theorem Regs.busy_eq_false (r : Regs) : r.busy = false ↔ r.phase = .idle := by
  simp [Regs.busy]

/-- The one idle state with a meaning is `(IDLE, 0, 0, 0)` (R26). -/
theorem Regs.eq_idle_of_wf (r : Regs) (hw : r.wf = true) (hp : r.phase = .idle) : r = Regs.idle := by
  obtain ⟨p, sh, bc, t⟩ := r
  simp only at hp
  subst hp
  simpa [Regs.wf, Regs.idle, and_assoc] using hw

end Sys2Proof.Machine
end

