-- ==== Sys2Proof/Laws/Ops.lean ====
section
/-! SUPPORT. Once for each shared operation, everything it can do. -/

namespace Sys2Proof.Machine

@[simp] theorem andThen_next {α β : Type} (a : α) (f : α → Result β) : andThen (.next a) f = f a := rfl
@[simp] theorem andThen_refused {α β : Type} (e : Refusal) (f : α → Result β) :
    andThen (.refused e) f = .refused e := rfl

/-- If a composition answers next, its first part does, and its second from there. -/
theorem andThen_eq_next {α β : Type} {r : Result α} {f : α → Result β} {b : β} :
    andThen r f = .next b ↔ ∃ a, r = .next a ∧ f a = .next b := by
  cases r <;> simp [andThen]

/-- No outcome is a fault (R99). -/
theorem next_or_refused {α : Type} (r : Result α) : (∃ a, r = .next a) ∨ ∃ e, r = .refused e := by
  cases r with
  | next a => exact .inl ⟨a, rfl⟩
  | fault e => cases e
  | refused e => exact .inr ⟨e, rfl⟩

/-- Where channel `k` exists, an operation on it is that operation on the channel. -/
theorem onChannel_of_some {k : Nat} {s : State} {c : Channel} (h : s.channels[k]? = some c)
    (f : Channel → Result Channel) :
    onChannel k s f = andThen (f c) fun c' => .next (s.setChannel k c') := by
  simp [onChannel, h]

/-- Where there is no channel `k`, the operation is refused (R93). -/
theorem onChannel_of_none {k : Nat} {s : State} (h : s.channels.length ≤ k) (f : Channel → Result Channel) :
    onChannel k s f = .refused .noSuchPin := by
  simp [onChannel, List.getElem?_eq_none h]

/-- Everything an operation on a channel can do when it answers next: that channel changes, and nothing else. -/
theorem onChannel_eq_next {k : Nat} {s t : State} {f : Channel → Result Channel} :
    onChannel k s f = .next t ↔
      ∃ c c', s.channels[k]? = some c ∧ f c = .next c' ∧ t = s.setChannel k c' := by
  unfold onChannel
  cases h : s.channels[k]? with
  | none => simp
  | some c =>
    simp only [andThen_eq_next, Option.some.injEq, Host.Outcome.next.injEq]
    constructor
    · rintro ⟨c', hf, rfl⟩
      exact ⟨c, c', rfl, hf, rfl⟩
    · rintro ⟨_, c', rfl, hf, rfl⟩
      exact ⟨c', hf, rfl⟩

/-- Everything a busy channel's micro-operation can do when it answers next. -/
theorem microOp_eq_next {c c' : Channel} {sel : Bool} {arm : Channel → Channel} :
    c.microOp sel arm = .next c' ↔
      c.ports.rst = false ∧ sel = true ∧ c.regs.wf = true ∧
        c' = if c.regs.counting then c.count else arm c := by
  unfold Channel.microOp
  cases c.ports.rst <;> cases sel <;> cases c.regs.wf <;> simp [eq_comm (a := c')]

/-- Everything `EMIT` and `NOP` can do when they answer next. -/
theorem commandTick_eq_next {c c' : Channel} {f : Channel → Channel} :
    c.commandTick f = .next c' ↔
      (c.ports.rst = true ∧ c' = c.clear) ∨
      (c.ports.rst = false ∧ c.regs.wf = true ∧ c.regs.busy = true ∧ c' = c.advance) ∨
      (c.ports.rst = false ∧ c.regs = Regs.idle ∧ c' = f c) := by
  unfold Channel.commandTick
  by_cases hr : c.ports.rst = true
  · simp [hr, eq_comm (a := c')]
  · by_cases hw : c.regs.wf = true
    · by_cases hb : c.regs.busy = true
      · have hne : c.regs ≠ Regs.idle := fun h => by rw [h] at hb; exact Bool.noConfusion hb
        simp [hr, hw, hb, hne, eq_comm (a := c')]
      · have hi : c.regs = Regs.idle :=
          c.regs.eq_idle_of_wf hw (c.regs.busy_eq_false.1 (by simpa using hb))
        simp [hr, hi, Regs.busy, eq_comm (a := c')]
    · have hne : c.regs ≠ Regs.idle := fun h => hw (by rw [h]; rfl)
      simp [hr, hw, hne]

/-! ### The ports that a program drives -/

/-- Membership in the lines of a tick and channel. -/
theorem mem_linesAt {program : List Line} {t k : Nat} {l : Line} :
    l ∈ linesAt program t k ↔ l ∈ program ∧ l.tick = t ∧ l.chan = k := by
  simp [linesAt]

/-- `rst` is 1 exactly by some line of the tick and channel. -/
theorem portsAt_rst_iff {program : List Line} {t k : Nat} :
    (portsAt program t k).rst = true ↔ ∃ l ∈ program, l.tick = t ∧ l.chan = k ∧ l.ports.rst = true := by
  simp [portsAt, portsOf, mem_linesAt, and_assoc]

/-- `start` is 1 exactly by some line of the tick and channel. -/
theorem portsAt_start_iff {program : List Line} {t k : Nat} :
    (portsAt program t k).start = true ↔ ∃ l ∈ program, l.tick = t ∧ l.chan = k ∧ l.ports.start = true := by
  simp [portsAt, portsOf, mem_linesAt, and_assoc]

/-- The operands are those of the line chosen for them. -/
theorem portsOf_operands {lines : List Line} {l : Line} (h : operandLine lines = some l) :
    (portsOf lines).address = l.ports.address ∧ (portsOf lines).command = l.ports.command := by
  simp [portsOf, h]

/-- Only the lines for channel `k` drive it. -/
theorem portsAt_filter (program : List Line) (t k : Nat) :
    portsAt (program.filter fun l => l.chan == k) t k = portsAt program t k := by
  simp only [portsAt, linesAt, List.filter_filter]
  congr 2
  funext l
  cases l.chan == k <;> simp

/-! ### The serializer's operations and the ports -/

/-- A channel's ports are written by no operation of the serializer. -/
@[simp] theorem Channel.endInterval_ports (c : Channel) : c.endInterval.ports = c.ports := by
  unfold Channel.endInterval
  cases c.regs.phase <;> rfl

@[simp] theorem Channel.endInterval_bus (c : Channel) : c.endInterval.bus = c.bus := by
  unfold Channel.endInterval
  cases c.regs.phase <;> rfl

@[simp] theorem Channel.advance_ports (c : Channel) : c.advance.ports = c.ports := by
  unfold Channel.advance
  split <;> simp

@[simp] theorem Channel.advance_bus (c : Channel) : c.advance.bus = c.bus := by
  unfold Channel.advance
  split <;> simp

end Sys2Proof.Machine
end

