-- ==== Sys2Proof/Laws/Serializer.lean ====
section
/-! SUPPORT. The serializer's registers and record through one tick, in the spec's numbers, and the registers to which
the spec gives a meaning. -/

namespace Sys2Proof.Machine

/-! ### The timer loads (R63) -/

@[simp] theorem timerOf_dLeadMark : timerOf dLeadMark = 9024#14 := rfl
@[simp] theorem timerOf_dLeadSpace : timerOf dLeadSpace = 4512#14 := rfl
@[simp] theorem timerOf_dBitMark : timerOf dBitMark = 564#14 := rfl
@[simp] theorem timerOf_dStopMark : timerOf dStopMark = 564#14 := rfl
@[simp] theorem timerOf_zero : timerOf 0 = 0#14 := rfl
@[simp] theorem timerOf_spaceOf (b : Bool) : timerOf (spaceOf b) = if b then 1692#14 else 564#14 := by
  cases b <;> rfl
@[simp] theorem spaceOf_eq (b : Bool) : spaceOf b = if b then 1692 else 564 := by
  cases b <;> rfl

/-! ### The end-of-interval arms, field by field -/

@[simp] theorem Channel.endLeadMark_regs (c : Channel) :
    c.endLeadMark.regs = ⟨.leadSpace, c.regs.shreg, c.regs.bitcnt, 4512#14⟩ := rfl
@[simp] theorem Channel.endLeadMark_sched (c : Channel) : c.endLeadMark.sched = c.sched := rfl
@[simp] theorem Channel.endLeadSpace_regs (c : Channel) :
    c.endLeadSpace.regs = ⟨.bitMark, c.regs.shreg, c.regs.bitcnt, 564#14⟩ := rfl
@[simp] theorem Channel.endLeadSpace_sched (c : Channel) : c.endLeadSpace.sched = c.sched ++ leadIntervals := rfl
@[simp] theorem Channel.endBitMark_regs (c : Channel) (b : Bool) :
    (c.endBitMark b).regs = ⟨.bitSpace, c.regs.shreg, c.regs.bitcnt, if b then 1692#14 else 564#14⟩ := by
  cases b <;> rfl
@[simp] theorem Channel.endBitMark_sched (c : Channel) (b : Bool) : (c.endBitMark b).sched = c.sched := rfl
@[simp] theorem Channel.endBitSpace_regs (c : Channel) :
    c.endBitSpace.regs =
      ⟨if c.regs.bitcnt = 1#6 then .stopMark else .bitMark, c.regs.shreg <<< 1, c.regs.bitcnt - 1#6, 564#14⟩ := by
  unfold Channel.endBitSpace Regs.lastBit
  by_cases h : c.regs.bitcnt = 1#6 <;> simp [h, Regs.startInterval, Regs.shiftOut]
@[simp] theorem Channel.endBitSpace_sched (c : Channel) :
    c.endBitSpace.sched = c.sched ++ bitIntervals c.regs.dataBit := rfl
@[simp] theorem Channel.endStopMark_regs (c : Channel) :
    c.endStopMark.regs = ⟨.idle, c.regs.shreg, c.regs.bitcnt, 0#14⟩ := rfl
@[simp] theorem Channel.endStopMark_sched (c : Channel) : c.endStopMark.sched = c.sched ++ stopIntervals := rfl

/-- A tick that counts. -/
theorem Channel.advance_of_counting {c : Channel} (h : 1 < c.regs.timer.toNat) : c.advance = c.count := by
  simp [Channel.advance, Regs.counting, h]

/-- The last tick of an interval. -/
theorem Channel.advance_of_last {c : Channel} (h : c.regs.timer.toNat ≤ 1) : c.advance = c.endInterval := by
  simp [Channel.advance, Regs.counting, Nat.not_lt.2 h]

/-! ### Registers with a meaning, phase by phase (R25 for every word) -/

theorem Regs.wf_idle {r : Regs} (h : r.phase = .idle) : r.wf = true ↔ r = Regs.idle := by
  refine ⟨fun hw => r.eq_idle_of_wf hw h, ?_⟩
  rintro rfl
  rfl

theorem Regs.wf_leadMark {r : Regs} (h : r.phase = .leadMark) :
    r.wf = true ↔ r.bitcnt = 32#6 ∧ 1 ≤ r.timer.toNat ∧ r.timer.toNat ≤ 9024 := by
  simp [Regs.wf, h, Regs.timerWithin, show dLeadMark = 9024 from rfl]

theorem Regs.wf_leadSpace {r : Regs} (h : r.phase = .leadSpace) :
    r.wf = true ↔ r.bitcnt = 32#6 ∧ 1 ≤ r.timer.toNat ∧ r.timer.toNat ≤ 4512 := by
  simp [Regs.wf, h, Regs.timerWithin, show dLeadSpace = 4512 from rfl]

theorem Regs.wf_bitMark {r : Regs} (h : r.phase = .bitMark) :
    r.wf = true ↔ 1 ≤ r.bitcnt.toNat ∧ r.bitcnt.toNat ≤ 32 ∧ r.shreg <<< r.bitcnt.toNat = 0#32 ∧
      1 ≤ r.timer.toNat ∧ r.timer.toNat ≤ 564 := by
  simp [Regs.wf, h, Regs.shifted, Regs.timerWithin, show dBitMark = 564 from rfl, and_assoc]

theorem Regs.wf_bitSpace {r : Regs} (h : r.phase = .bitSpace) :
    r.wf = true ↔ 1 ≤ r.bitcnt.toNat ∧ r.bitcnt.toNat ≤ 32 ∧ r.shreg <<< r.bitcnt.toNat = 0#32 ∧
      1 ≤ r.timer.toNat ∧ r.timer.toNat ≤ if r.dataBit then 1692 else 564 := by
  simp [Regs.wf, h, Regs.shifted, Regs.timerWithin, and_assoc]

theorem Regs.wf_stopMark {r : Regs} (h : r.phase = .stopMark) :
    r.wf = true ↔ r.shreg = 0#32 ∧ r.bitcnt = 0#6 ∧ 1 ≤ r.timer.toNat ∧ r.timer.toNat ≤ 564 := by
  simp [Regs.wf, h, Regs.timerWithin, show dStopMark = 564 from rfl, and_assoc]

/-- `TIMER` is at least 1 in flight (R25). -/
theorem Regs.one_le_timer {r : Regs} (hw : r.wf = true) (hb : r.busy = true) : 1 ≤ r.timer.toNat := by
  cases hp : r.phase with
  | idle => simp [Regs.busy, hp] at hb
  | leadMark => exact ((Regs.wf_leadMark hp).1 hw).2.1
  | leadSpace => exact ((Regs.wf_leadSpace hp).1 hw).2.1
  | bitMark => exact ((Regs.wf_bitMark hp).1 hw).2.2.2.1
  | bitSpace => exact ((Regs.wf_bitSpace hp).1 hw).2.2.2.1
  | stopMark => exact ((Regs.wf_stopMark hp).1 hw).2.2.1

/-- `BITCNT - 1` does not wrap from 1 on (R19, R84). -/
theorem bitcnt_pred_toNat {n : BitVec 6} (h : 1 ≤ n.toNat) : (n - 1#6).toNat = n.toNat - 1 := by
  have := n.isLt
  simp only [BitVec.toNat_sub, BitVec.toNat_ofNat]
  omega

/-- `BITCNT` is at least 2 where it is neither 0 nor 1. -/
theorem two_le_of_ne_one {n : BitVec 6} (h : 1 ≤ n.toNat) (hne : n ≠ 1#6) : 2 ≤ n.toNat := by
  by_contra hlt
  exact hne (BitVec.eq_of_toNat_eq (by simp; omega))

/-! ### The data bits in order of transmission -/

@[simp] theorem bitsDown_length (f : Frame) (n : Nat) : (bitsDown f n).length = n := by
  induction n with
  | zero => rfl
  | succ n ih => simp [bitsDown, ih]

/-- The `i`-th bit sent is `f[n - 1 - i]` (R33). -/
theorem bitsDown_getElem? (f : Frame) {n i : Nat} (h : i < n) :
    (bitsDown f n)[i]? = some (f.getLsbD (n - 1 - i)) := by
  induction n generalizing i with
  | zero => omega
  | succ n ih =>
    cases i with
    | zero => simp [bitsDown]
    | succ i =>
      rw [bitsDown, List.getElem?_cons_succ, ih (by omega)]
      congr 2
      omega

/-- The bits sent before bit `n - 1` and bit `n - 1` itself, where `n` bits are left. -/
theorem take_bitsDown_succ (f : Frame) {n : Nat} (h1 : 1 ≤ n) (h2 : n ≤ 32) :
    (bitsDown f 32).take (32 - (n - 1)) = (bitsDown f 32).take (32 - n) ++ [f.getLsbD (n - 1)] := by
  rw [show 32 - (n - 1) = 32 - n + 1 by omega, List.take_add_one, bitsDown_getElem? f (by omega)]
  simp only [Option.toList_some]
  congr 3
  omega

/-- The top bit of `f << (32 - n)` is `f[n - 1]` (R19). -/
theorem shiftLeft_top (f : Frame) {n : Nat} (h1 : 1 ≤ n) (h2 : n ≤ 32) :
    (f <<< (32 - n)).getLsbD 31 = f.getLsbD (n - 1) := by
  rw [BitVec.getLsbD_shiftLeft, show 31 - (32 - n) = n - 1 by omega]
  simp
  omega

/-- `f << (32 - n)` has its low `32 - n` bits 0. -/
theorem shiftLeft_shiftLeft_eq_zero (f : Frame) {n : Nat} (h : n ≤ 32) : (f <<< (32 - n)) <<< n = 0#32 := by
  rw [← BitVec.shiftLeft_add, show 32 - n + n = 32 by omega]
  simp

end Sys2Proof.Machine
end

