-- ==== Sys2Proof/Laws/Tick.lean ====
section
/-! SUPPORT. What a tick does: channel by channel the reading of R73, then the next tick's inputs. -/

namespace Sys2Proof.Machine

/-- The operation a channel's select word decodes to (R46, R73). -/
def selectedOp (k : Nat) (c : Channel) : Instr :=
  if c.ports.rst then .reset k
  else
    match c.regs.phase with
    | .idle => .uIdle k c.regs.dataBit
    | .leadMark => .uLeadMark k c.regs.dataBit
    | .leadSpace => .uLeadSpace k c.regs.dataBit
    | .bitMark => .uBitMark k c.regs.dataBit
    | .bitSpace => .uBitSpace k c.regs.dataBit
    | .stopMark => .uStopMark k c.regs.dataBit

/-- Every select word decodes: `PHASE` never holds 6 or 7. -/
theorem decode_selectWord (k : Nat) (c : Channel) : decode k c.selectWord = .ok (selectedOp k c) := by
  unfold Channel.selectWord selectedOp
  cases c.ports.rst
  · cases c.regs.phase <;> cases c.regs.dataBit <;> rfl
  · rfl

theorem fetch_of_some {k : Nat} {s : State} {c : Channel} (h : s.channels[k]? = some c) :
    s.fetch k = some (selectedOp k c) := by
  simp [State.fetch, h, decode_selectWord]

/-- A channel's tick, run through fetch, decode and `exec`, is the reading of R73. -/
theorem tickChannel_of_some {k : Nat} {s : State} {c : Channel} (h : s.channels[k]? = some c) :
    tickChannel k s = andThen c.tick fun c' => .next (s.setChannel k c') := by
  unfold tickChannel
  rw [fetch_of_some h]
  simp only
  unfold selectedOp
  by_cases hr : c.ports.rst = true
  · simp [hr, exec, execReset, onChannel_of_some h, Channel.tick]
  · have hr' : c.ports.rst = false := by simpa using hr
    cases hp : c.regs.phase <;>
      simp [hr', exec, execUIdle, execULeadMark, execULeadSpace, execUBitMark, execUBitSpace, execUStopMark,
        onChannel, h, Channel.tick, Channel.emit, Channel.nop, Channel.commandTick, Channel.microOp,
        Channel.advance, Channel.endInterval, Regs.busy, hp]
    cases c.ports.start <;> simp

/-- Everything a channel's tick can do when it answers next (R73, R74). -/
theorem Channel.tick_eq_next {c c' : Channel} :
    c.tick = .next c' ↔
      (c.ports.rst = true ∧ c' = c.clear) ∨
      (c.ports.rst = false ∧ c.regs.wf = true ∧ c.regs.busy = true ∧ c' = c.advance) ∨
      (c.ports.rst = false ∧ c.regs = Regs.idle ∧ c.ports.start = true ∧
        c' = c.accept c.ports.address c.ports.command) ∨
      (c.ports.rst = false ∧ c.regs = Regs.idle ∧ c.ports.start = false ∧ c' = c) := by
  unfold Channel.tick
  by_cases hr : c.ports.rst = true
  · simp [hr, eq_comm (a := c')]
  · by_cases hw : c.regs.wf = true
    · by_cases hb : c.regs.busy = true
      · have hne : c.regs ≠ Regs.idle := fun h => by rw [h] at hb; exact Bool.noConfusion hb
        simp [hr, hw, hb, hne, eq_comm (a := c')]
      · have hi : c.regs = Regs.idle :=
          c.regs.eq_idle_of_wf hw (c.regs.busy_eq_false.1 (by simpa using hb))
        cases hs : c.ports.start <;> simp [hr, hi, Regs.busy, eq_comm (a := c')]
    · have hne : c.regs ≠ Regs.idle := fun h => hw (by rw [h]; rfl)
      simp [hr, hw, hne]

/-- A channel's tick leaves its input ports alone. -/
theorem Channel.tick_ports {c c' : Channel} (h : c.tick = .next c') : c'.ports = c.ports := by
  rcases Channel.tick_eq_next.1 h with ⟨_, rfl⟩ | ⟨_, _, _, rfl⟩ | ⟨_, _, _, rfl⟩ | ⟨_, _, _, rfl⟩ <;> simp

/-- A channel's tick answers next exactly when it is reset or its registers have a meaning. -/
theorem Channel.tick_next_iff (c : Channel) :
    (∃ c', c.tick = .next c') ↔ (c.ports.rst = true ∨ c.regs.wf = true) := by
  unfold Channel.tick
  cases c.ports.rst <;> cases c.regs.wf <;> simp
  cases c.regs.busy <;> cases c.ports.start <;> simp

/-- Everything the ticks of channels `k .. k+n-1` can do when they answer next. -/
theorem tickChannels_eq_next {n k : Nat} {s t : State} (hk : k + n ≤ s.channels.length) :
    tickChannels n k s = .next t ↔
      t.tick = s.tick ∧ t.program = s.program ∧ t.channels.length = s.channels.length ∧
      (∀ j, (j < k ∨ k + n ≤ j) → t.channels[j]? = s.channels[j]?) ∧
      (∀ (j : Nat) (c : Channel), k ≤ j → j < k + n → s.channels[j]? = some c →
        ∃ c', c.tick = .next c' ∧ t.channels[j]? = some c') := by
  induction n generalizing k s with
  | zero =>
    simp only [tickChannels, Nat.add_zero]
    constructor
    · intro h
      cases h
      refine ⟨rfl, rfl, rfl, fun _ _ => rfl, fun j c h1 h2 => ?_⟩
      omega
    · rintro ⟨h1, h2, -, h4, -⟩
      obtain ⟨sc, st, sp⟩ := s
      obtain ⟨tc, tt, tp⟩ := t
      simp only at h1 h2 h4
      subst h1 h2
      have : tc = sc := List.ext_getElem? fun j => h4 j (by omega)
      rw [this]
  | succ n ih =>
    have hlt : k < s.channels.length := by omega
    obtain ⟨c, hc⟩ : ∃ c, s.channels[k]? = some c := ⟨s.channels[k], List.getElem?_eq_getElem hlt⟩
    simp only [tickChannels, tickChannel_of_some hc, andThen_eq_next]
    constructor
    · rintro ⟨s1, ⟨c', hc', hs1⟩, ht⟩
      cases hs1
      obtain ⟨h1, h2, h3, h4, h5⟩ := (ih (by simp; omega)).1 ht
      refine ⟨h1, h2, by simpa using h3, fun j hj => ?_, fun j d hj1 hj2 hd => ?_⟩
      · rw [h4 j (by omega)]
        simp [show k ≠ j by omega]
      · by_cases hjk : j = k
        · subst hjk
          rw [hc] at hd
          cases hd
          refine ⟨c', hc', ?_⟩
          rw [h4 j (by omega)]
          simp [hlt]
        · refine h5 j d (by omega) (by omega) ?_
          simpa [List.getElem?_set, show k ≠ j by omega] using hd
    · rintro ⟨h1, h2, h3, h4, h5⟩
      obtain ⟨c', hc', htc⟩ := h5 k c (le_refl k) (by omega) hc
      refine ⟨s.setChannel k c', ⟨c', hc', rfl⟩, (ih (by simp; omega)).2 ⟨h1, h2, by simpa using h3, ?_, ?_⟩⟩
      · intro j hj
        by_cases hjk : j = k
        · subst hjk
          simp [htc, hlt]
        · rw [h4 j (by omega)]
          simp [show k ≠ j by omega]
      · intro j d hj1 hj2 hd
        refine h5 j d (by omega) (by omega) ?_
        simpa [List.getElem?_set, show k ≠ j by omega] using hd

/-- Everything a step can do when it answers next: no line of this tick addresses a missing channel, each channel has
done its own tick, and the next tick has begun. -/
theorem step_eq_next {s t : State} :
    step s = .next t ↔
      s.addressesNoChannel = false ∧ t.tick = s.tick + 1 ∧ t.program = s.program ∧
      t.channels.length = s.channels.length ∧
      ∀ (k : Nat) (c : Channel), s.channels[k]? = some c →
        ∃ c', c.tick = .next c' ∧
          t.channels[k]? = some { c' with ports := portsAt s.program (s.tick + 1) k } := by
  unfold step tickSystem
  cases ha : s.addressesNoChannel
  · simp only [Bool.false_eq_true, if_false, andThen_eq_next, true_and]
    constructor
    · rintro ⟨u, hu, ht⟩
      cases ht
      obtain ⟨h1, h2, h3, -, h5⟩ := (tickChannels_eq_next (by omega)).1 hu
      refine ⟨by simp [h1], by simp [h2], by simp [h3], fun k c hc => ?_⟩
      have hlt : k < s.channels.length := (List.getElem?_eq_some_iff.1 hc).1
      obtain ⟨c', hc', huc⟩ := h5 k c (Nat.zero_le k) (by omega) hc
      exact ⟨c', hc', by simp [huc, h1, h2]⟩
    · rintro ⟨h1, h2, h3, h4⟩
      have hch : ∀ k (hk : k < s.channels.length), ∃ c', (s.channels[k]).tick = .next c' ∧
          t.channels[k]? = some { c' with ports := portsAt s.program (s.tick + 1) k } :=
        fun k hk => h4 k _ (List.getElem?_eq_getElem hk)
      let u : State := ⟨s.channels.mapIdx fun k c =>
        match c.tick with | .next c' => c' | .fault _ => c | .refused _ => c, s.tick, s.program⟩
      refine ⟨u, (tickChannels_eq_next (by omega)).2 ⟨rfl, rfl, by simp [u], ?_, ?_⟩, ?_⟩
      · intro j hj
        have : s.channels.length ≤ j := by omega
        simp [u, List.getElem?_eq_none this]
      · intro j c _ hj hc
        obtain ⟨c', hc', -⟩ := h4 j c hc
        exact ⟨c', hc', by simp [u, hc, hc']⟩
      · congr 1
        obtain ⟨tc, tt, tp⟩ := t
        simp only at h1 h2 h3 h4
        subst h1 h2
        simp only [State.nextTick, State.drivePorts, State.mk.injEq]
        refine ⟨List.ext_getElem? fun j => ?_, rfl, rfl⟩
        by_cases hj : j < s.channels.length
        · obtain ⟨c', hc', htc⟩ := h4 j _ (List.getElem?_eq_getElem hj)
          rw [htc]
          simp [u, hj, hc']
        · have hj' : s.channels.length ≤ j := by omega
          simp [u, List.getElem?_eq_none hj', List.getElem?_eq_none (h3 ▸ hj' : tc.length ≤ j)]
  · simp

/-- The runs of the model are the runs of the host's core. -/
theorem steps_eq_run (n : Nat) (s : State) : steps n s = Host.Core.run Sys2Proof.core n s := by
  induction n generalizing s with
  | zero => rfl
  | succ n ih =>
    show andThen (step s) (steps n) = _
    cases h : step s with
    | next s' =>
      have h' : Host.Core.step Sys2Proof.core s = .next s' := h
      simp only [Host.Core.run, h', andThen_next]
      exact ih s'
    | fault e => cases e
    | refused e =>
      have h' : Host.Core.step Sys2Proof.core s = .refused e := h
      simp only [Host.Core.run, h', andThen_refused]
      rfl

/-- A run of `m + n` ticks is a run of `m` and then one of `n`. -/
theorem steps_add (m n : Nat) (s : State) : steps (m + n) s = andThen (steps m s) (steps n) := by
  induction m generalizing s with
  | zero => simp [steps]
  | succ m ih =>
    rw [Nat.succ_add]
    show andThen (step s) (steps (m + n)) = andThen (andThen (step s) (steps m)) (steps n)
    cases step s with
    | next s' => exact ih s'
    | fault e => cases e
    | refused e => rfl

end Sys2Proof.Machine
end

