-- ==== Sys2Proof/Laws/Schedule.lean ====
section
/-! SUPPORT. Schedules as lists: where an interval stands, where a tick falls in a schedule, how long it lasts; and the
inputs of the ticks of a run. -/

namespace Sys2Proof.Machine

/-! ### Data symbols in a schedule -/

/-- The mark and the space of the `i`-th data bit (R64, R66, R67). -/
theorem flatMap_bitIntervals_getElem? (L : List Bool) (i : Nat) :
    (L.flatMap bitIntervals)[2 * i]? = L[i]?.map (fun _ => ⟨.low, 564⟩) ∧
    (L.flatMap bitIntervals)[2 * i + 1]? = L[i]?.map (fun b => ⟨.high, spaceOf b⟩) := by
  induction L generalizing i with
  | nil => simp
  | cons b L ih =>
    cases i with
    | zero => exact ⟨rfl, rfl⟩
    | succ i => exact ih i

theorem flatMap_bitIntervals_length (L : List Bool) : (L.flatMap bitIntervals).length = 2 * L.length := by
  induction L with
  | nil => rfl
  | cons b L ih => simp [ih, bitIntervals]; omega

/-- Each 0 lasts `2T` and each 1 `4T`. -/
theorem duration_flatMap_bitIntervals (L : List Bool) :
    duration (L.flatMap bitIntervals) = 564 * L.length + 564 * L.count false + 1692 * L.count true := by
  induction L with
  | nil => rfl
  | cons b L ih =>
    simp only [duration, List.flatMap_cons, List.map_append, List.sum_append] at ih ⊢
    rw [ih]
    cases b <;> simp [bitIntervals, show dBitMark = 564 from rfl] <;> omega

/-- No interval is empty. -/
theorem sched_duration_pos (f : Frame) : ∀ iv ∈ sched f, 1 ≤ iv.duration := by
  intro iv h
  simp only [sched, List.mem_append, List.mem_flatMap, leadIntervals, stopIntervals, bitIntervals] at h
  rcases h with (h | ⟨b, -, h⟩) | h
  · simp at h; rcases h with rfl | rfl <;> decide
  · simp at h
    rcases h with rfl | rfl
    · decide
    · cases b <;> simp
  · simp at h; subst h; decide

/-- The bits of a byte, most significant first. -/
def byteBits (x : Byte) : List Bool :=
  [x.getLsbD 7, x.getLsbD 6, x.getLsbD 5, x.getLsbD 4, x.getLsbD 3, x.getLsbD 2, x.getLsbD 1, x.getLsbD 0]

/-- A packed frame is sent byte by byte, most significant bit first (R33, R34). -/
theorem bitsDown_packFrame (a d : Byte) :
    bitsDown (packFrame a d) 32 = (byteBits a ++ byteBits (not8 a)) ++ (byteBits d ++ byteBits (not8 d)) := by
  simp only [bitsDown, packFrame_getLsbD]
  rfl

/-! ### Where a tick falls -/

/-- From one tick to the next within a schedule: the same interval with one tick less, or the next interval. -/
theorem intervalAt_succ {l : List Interval} (hpos : ∀ iv ∈ l, 1 ≤ iv.duration) {j i : Nat} {lv : Level} {left : Nat}
    (h : intervalAt l j = some (i, lv, left)) :
    1 ≤ left ∧ (∃ d, l[i]? = some ⟨lv, d⟩ ∧ left ≤ d) ∧
    (1 < left → intervalAt l (j + 1) = some (i, lv, left - 1)) ∧
    (left = 1 → intervalAt l (j + 1) = l[i + 1]?.map fun iv => (i + 1, iv.level, iv.duration)) := by
  induction l generalizing j i with
  | nil => simp [intervalAt] at h
  | cons iv l ih =>
    simp only [intervalAt] at h ⊢
    by_cases hj : j < iv.duration
    · rw [if_pos hj] at h
      cases h
      refine ⟨by omega, ⟨iv.duration, rfl, by omega⟩, fun h1 => ?_, fun h1 => ?_⟩
      · rw [if_pos (by omega)]; congr 3
      · rw [if_neg (by omega), show j + 1 - iv.duration = 0 by omega]
        cases l with
        | nil => rfl
        | cons jv l =>
          have := hpos jv (by simp)
          simp [intervalAt, show 0 < jv.duration by omega]
    · rw [if_neg hj] at h
      rw [if_neg (by omega)]
      simp only [Option.map_eq_some_iff, Prod.mk.injEq, Prod.exists] at h
      obtain ⟨i', lv', left', h, rfl, rfl, rfl⟩ := h
      obtain ⟨h1, h2, h3, h4⟩ := ih (fun x hx => hpos x (by simp [hx])) h
      rw [show j + 1 - iv.duration = j - iv.duration + 1 by omega]
      refine ⟨h1, h2, fun h => by rw [h3 h]; rfl, fun h => ?_⟩
      rw [h4 h]
      simp only [List.getElem?_cons_succ]
      cases l[i' + 1]? <;> rfl

/-- A schedule has exactly as many ticks as it lasts. -/
theorem intervalAt_isSome (l : List Interval) (j : Nat) : (intervalAt l j).isSome = true ↔ j < duration l := by
  induction l generalizing j with
  | nil => simp [intervalAt, duration]
  | cons iv l ih =>
    simp only [intervalAt]
    rw [show duration (iv :: l) = iv.duration + duration l by simp [duration]]
    by_cases hj : j < iv.duration
    · simp [hj]; omega
    · simp [hj, ih]; omega

/-! ### The inputs of a run -/

/-- A run one tick longer. -/
theorem steps_succ (j : Nat) (s : State) : steps (j + 1) s = andThen (steps j s) step := by
  rw [steps_add]
  congr 1
  funext t
  simp only [steps]
  cases step t <;> rfl

/-- A run without reset on channel `k` drives `rst = 0` there. -/
theorem portsAt_rst {s : State} {k n j : Nat} (h : s.noResetWithin k n = true) (h1 : 1 ≤ j) (h2 : j < n) :
    (portsAt s.program (s.tick + j) k).rst = false := by
  rw [Bool.eq_false_iff, Ne, portsAt_rst_iff]
  rintro ⟨l, hm, ht, hk, hr⟩
  simp only [State.noResetWithin, Bool.and_eq_true, List.all_eq_true] at h
  have := h.2 l hm
  simp [ht, hk, hr, bne] at this
  omega

/-- In the ticks of such a run no line addresses a missing channel. -/
theorem addressesNoChannel_of_valid {s t : State} {n j : Nat} (h : s.pinsValidWithin n = true) (hj : j < n)
    (h1 : t.tick = s.tick + j) (h2 : t.program = s.program) (h3 : t.channels.length = s.channels.length) :
    t.addressesNoChannel = false := by
  simp only [State.addressesNoChannel, List.any_eq_false, h2, h1, h3]
  intro l hl
  simp only [State.pinsValidWithin, List.all_eq_true] at h
  have := h l hl
  simp at this ⊢
  intro h
  omega

end Sys2Proof.Machine
end

