-- ==== Sys2Proof/Laws/Call.lean ====
section
/-! SUPPORT. The blocking call: what presenting it changes, and where it returns. -/

namespace Sys2Proof.Machine

/-- Presenting a call writes the command port of its channel and silences the later commands for it. -/
theorem EmitCall.present_of_some {e : EmitCall} {s : State} {c : Channel} (h : s.channels[e.pin]? = some c) :
    e.present s =
      { s with program := withoutCommands s.program s.tick e.pin }.setChannel e.pin
        { c with ports := ⟨c.ports.rst, true, e.address, e.command⟩ } := by
  simp [EmitCall.present, h]

@[simp] theorem EmitCall.present_tick (e : EmitCall) (s : State) : (e.present s).tick = s.tick := by
  unfold EmitCall.present
  split <;> rfl

@[simp] theorem EmitCall.present_length (e : EmitCall) (s : State) :
    (e.present s).channels.length = s.channels.length := by
  unfold EmitCall.present
  split <;> simp

/-- Every line of the silenced program is a line of the program with its tick, channel and `rst`. -/
theorem exists_of_mem_withoutCommands {program : List Line} {t k : Nat} {l : Line}
    (h : l ∈ withoutCommands program t k) :
    ∃ m ∈ program, l.tick = m.tick ∧ l.chan = m.chan ∧ l.ports.rst = m.ports.rst := by
  simp only [withoutCommands, List.mem_map] at h
  obtain ⟨m, hm, rfl⟩ := h
  refine ⟨m, hm, ?_⟩
  split <;> exact ⟨rfl, rfl, rfl⟩

/-- The silenced program drives no `start` on the channel from its tick on. -/
theorem portsAt_withoutCommands_start (program : List Line) {t u k : Nat} (h : t ≤ u) :
    (portsAt (withoutCommands program t k) u k).start = false := by
  rw [Bool.eq_false_iff, Ne, portsAt_start_iff]
  rintro ⟨l, hl, h1, h2, h3⟩
  simp only [withoutCommands, List.mem_map] at hl
  obtain ⟨m, -, rfl⟩ := hl
  split at h3
  · simp at h3
  · rename_i hn
    rw [if_neg hn] at h1 h2
    exact hn ⟨h2, by omega⟩

/-- A channel that is busy for `N` ticks and then not is awaited exactly until then. -/
theorem awaitIdle_of_run {k N : Nat} {s t : State}
    (hb : ∀ j : Nat, 1 ≤ j → j ≤ N → ∃ u, steps j s = .next u ∧ u.busyOf k = some true)
    (ht : steps (N + 1) s = .next t) (hi : t.busyOf k = some false) (n : Nat) :
    awaitIdle k n s = if N + 1 ≤ n then some t else none := by
  induction N generalizing s n with
  | zero =>
    cases n with
    | zero => rfl
    | succ n =>
      have h1 : step s = .next t := by
        simp only [steps, andThen_eq_next] at ht
        obtain ⟨u, hu, h⟩ := ht
        cases h
        exact hu
      simp [awaitIdle, h1, hi]
  | succ N ih =>
    cases n with
    | zero => rfl
    | succ n =>
      simp only [steps, andThen_eq_next] at ht
      obtain ⟨u, hu, ht⟩ := ht
      have hbu : u.busyOf k = some true := by
        obtain ⟨v, hv, h⟩ := hb 1 (le_refl 1) (by omega)
        simp only [steps, hu, andThen_next] at hv
        cases hv
        exact h
      have h := ih (s := u) (fun j h1 h2 => by
        obtain ⟨v, hv, h⟩ := hb (j + 1) (by omega) (by omega)
        simp only [steps, hu, andThen_next] at hv
        exact ⟨v, hv, h⟩) (by simp only [steps, andThen_eq_next]; exact ht) n
      simp [awaitIdle, hu, hbu, h]

end Sys2Proof.Machine
end

