-- ==== Sys2Proof/Tests/Slice0.lean ====
section
/-! SUPPORT. Tests of the author's own: the check on operations, the decoder on words written out from
`30_encoding.md` section 1, single steps on the vectors of `95_test_vectors.md`, and for every statement with hypotheses
a state and operands that meet them. Every expected value is the spec's. -/

namespace Sys2Proof.Tests

open Sys2Proof Sys2Proof.Machine

/-! ### Helpers -/

/-- A system of one channel at tick 0 with no program. -/
def one (r : Regs) (p : Ports) : State := ⟨[⟨r, p, 0#32, []⟩], 0, []⟩

/-- `start = 1` with the operands of the spec's example. -/
def emitPorts : Ports := ⟨false, true, 0x01#8, 0x40#8⟩

/-- The registers of channel `k` after an outcome. -/
def regsAfter (k : Nat) : Result State → Option Regs
  | .next t => t.channels[k]?.map Channel.regs
  | .fault _ => none
  | .refused _ => none

/-- The model's record of channel `k` after an outcome. -/
def schedAfter (k : Nat) : Result State → Option (List Interval)
  | .next t => t.channels[k]?.map Channel.sched
  | .fault _ => none
  | .refused _ => none

/-- The word on the model's bus of channel `k` after an outcome. -/
def busAfter (k : Nat) : Result State → Option Frame
  | .next t => t.channels[k]?.map Channel.bus
  | .fault _ => none
  | .refused _ => none

/-- The refusal, if that is the outcome. -/
def refusalOf {α : Type} : Result α → Option Refusal
  | .next _ => none
  | .fault _ => none
  | .refused e => some e

/-- The registers of the one channel after one step. -/
def stepRegs (r : Regs) (p : Ports) : Option Regs := regsAfter 0 (step (one r p))

/-! ### WellFormed: channel 4 of a system of four does not exist -/

theorem test_wellFormed_lastPin : (Instr.emit 3 0x01#8 0x40#8).wellFormed 4 = true := by decide
theorem test_wellFormed_emit_refused : (Instr.emit 4 0x01#8 0x40#8).wellFormed 4 = false := by decide
theorem test_wellFormed_others_refused :
    (([.nop 4 0#8 0#8, .reset 4, .pack 4 0#8 0#8, .lead 4, .bit0 4, .bit1 4, .stop 4, .rest 4, .uIdle 4 false,
      .uLeadMark 4 false, .uLeadSpace 4 false, .uBitMark 4 false, .uBitSpace 4 false, .uStopMark 4 false] :
      List Instr).any fun i => i.wellFormed 4) = false := by decide

/-! ### Decode: a word written out for every operation (R42, R43, R44, R46), and the rejects -/

theorem test_decode_emit : decode 2 (.cmd 0b1_00000001_01000000#17) = .ok (.emit 2 0x01#8 0x40#8) := by rfl
theorem test_decode_nop : decode 2 (.cmd 0b0_10000001_01000010#17) = .ok (.nop 2 0x81#8 0x42#8) := by rfl
theorem test_decode_reset : decode 2 (.portRst 0b1#1) = .ok (.reset 2) := by rfl
theorem test_decode_pack :
    decode 2 (.frame 0b00000001_11111110_01000000_10111111#32) = .ok (.pack 2 0x01#8 0x40#8) := by rfl
theorem test_decode_lead : decode 2 (.sym 0 []) = .ok (.lead 2) := by rfl
theorem test_decode_bit0 : decode 2 (.sym 1 [false]) = .ok (.bit0 2) ∧ decode 2 (.sym 32 [false]) = .ok (.bit0 2) :=
  ⟨rfl, rfl⟩
theorem test_decode_bit1 : decode 2 (.sym 1 [true]) = .ok (.bit1 2) ∧ decode 2 (.sym 32 [true]) = .ok (.bit1 2) :=
  ⟨rfl, rfl⟩
theorem test_decode_stop : decode 2 (.sym 33 []) = .ok (.stop 2) := by rfl
theorem test_decode_rest : decode 2 (.sym 34 []) = .ok (.rest 2) := by rfl
theorem test_decode_uIdle : decode 2 (.uop 0b000_1#4) = .ok (.uIdle 2 true) := by rfl
theorem test_decode_uLeadMark : decode 2 (.uop 0b001_0#4) = .ok (.uLeadMark 2 false) := by rfl
theorem test_decode_uLeadSpace : decode 2 (.uop 0b010_1#4) = .ok (.uLeadSpace 2 true) := by rfl
theorem test_decode_uBitMark :
    decode 2 (.uop 0b011_0#4) = .ok (.uBitMark 2 false) ∧ decode 2 (.uop 0b011_1#4) = .ok (.uBitMark 2 true) :=
  ⟨rfl, rfl⟩
theorem test_decode_uBitSpace : decode 2 (.uop 0b100_1#4) = .ok (.uBitSpace 2 true) := by rfl
theorem test_decode_uStopMark : decode 2 (.uop 0b101_0#4) = .ok (.uStopMark 2 false) := by rfl

theorem test_decode_rejects :
    decode 0 (.portRst 0b0#1) = .error .rstLow ∧ decode 0 (.frame 0x01FE40BE#32) = .error .brokenGuard ∧
    decode 0 (.frame 0x01FF40BF#32) = .error .brokenGuard ∧ decode 0 (.sym 1 []) = .error .symbolBits ∧
    decode 0 (.sym 33 [true]) = .error .symbolBits ∧ decode 0 (.uop 0b110_0#4) = .error .unreachablePhase ∧
    decode 0 (.uop 0b111_1#4) = .error .unreachablePhase :=
  ⟨rfl, rfl, rfl, rfl, rfl, rfl, rfl⟩

theorem test_encode_words :
    encode (.emit 0 0x01#8 0x60#8) = .cmd 0x10160#17 ∧ encode (.pack 0 0xA5#8 0x5A#8) = .frame 0xA55A5AA5#32 ∧
    encode (.uBitMark 0 true) = .uop 0b0111#4 := by decide

theorem test_decodeTableWord :
    decodeTableWord 24 0x10140 = some (.emit 0 0x01#8 0x40#8) ∧ decodeTableWord 24 0 = some (.nop 0 0#8 0#8) ∧
    decodeTableWord 8 1 = some (.reset 0) ∧ decodeTableWord 32 0 = some (.pack 0 0#8 0#8) ∧
    decodeTableWord 0 0 = some (.lead 0) ∧ decodeTableWord 8 0 = some (.bit0 0) ∧
    decodeTableWord 8 0xA = some (.uStopMark 0 false) := by decide

theorem test_decodeTableWord_none : decodeTableWord 8 0xC = none ∧ decodeTableWord 32 0x01FE40BE = none := by decide

/-- Placed words: `EMIT`, `RESET`, `PACK`, the last tick of `LEAD`, and `U_STOP_MARK`. -/
theorem test_withFetchWord :
    regsAfter 0 (step (State.reset.withFetchWord 24 0x10140)) = some ⟨.leadMark, 0x01FE40BF#32, 32#6, 9024#14⟩ ∧
    regsAfter 0 (step (State.reset.withFetchWord 8 1)) = some ⟨.idle, 0#32, 0#6, 0#14⟩ ∧
    regsAfter 0 (step (State.reset.withFetchWord 32 0)) = some ⟨.leadMark, 0x00FF00FF#32, 32#6, 9024#14⟩ ∧
    schedAfter 0 (step (State.reset.withFetchWord 0 0)) = some [⟨.low, 9024⟩, ⟨.high, 4512⟩] ∧
    regsAfter 0 (step (State.reset.withFetchWord 8 0xA)) = some ⟨.stopMark, 0#32, 0#6, 563#14⟩ := by decide

/-! ### The reset state (R29) -/

theorem test_reset_channels :
    State.reset.channels.map (fun c => (c.regs, c.regs.out, c.regs.busy)) =
      List.replicate 4 (⟨.idle, 0#32, 0#6, 0#14⟩, .high, false) := by decide

/-! ### `PACK` (F1, F6, F10, F11) and the schedules (V1, V7, V9) -/

theorem test_pack_source : busAfter 1 (exec (.pack 1 0x01#8 0x40#8) (State.resetWith 2)) = some 0x01FE40BF#32 := by
  decide
theorem test_pack_vectors :
    packFrame 0x00#8 0xFF#8 = 0x00FFFF00#32 ∧ packFrame 0xA5#8 0x5A#8 = 0xA55A5AA5#32 ∧
    packFrame 0x80#8 0x01#8 = 0x807F01FE#32 ∧ packFrame 0xA5#8 0xA5#8 = 0xA55AA55A#32 ∧
    packFrame 0x7F#8 0x80#8 = 0x7F80807F#32 := by decide
theorem test_duration_vectors :
    duration (sched 0x01FE40BF#32) = 68244 ∧ duration (sched 0x00000000#32) = 50196 ∧
    duration (sched 0x80000001#32) = 52452 := by decide
theorem test_sched_capture :
    ((sched 0x01FE40BF#32).drop 2).take 2 = [⟨.low, 564⟩, ⟨.high, 564⟩] ∧
    ((sched 0x01FE40BF#32).drop 16).take 2 = [⟨.low, 564⟩, ⟨.high, 1692⟩] ∧
    bitsDown 0x01FE40BF#32 32 =
      [false, false, false, false, false, false, false, true] ++ [true, true, true, true, true, true, true, false] ++
      [false, true, false, false, false, false, false, false] ++ [true, false, true, true, true, true, true, true] := by
  decide

/-! ### The symbols -/

theorem test_lead : schedAfter 0 (exec (.lead 0) (State.resetWith 1)) = some [⟨.low, 9024⟩, ⟨.high, 4512⟩] := by decide
theorem test_bit0 : schedAfter 0 (exec (.bit0 0) (State.resetWith 1)) = some [⟨.low, 564⟩, ⟨.high, 564⟩] := by decide
theorem test_bit1 : schedAfter 0 (exec (.bit1 0) (State.resetWith 1)) = some [⟨.low, 564⟩, ⟨.high, 1692⟩] := by decide
theorem test_stop : schedAfter 0 (exec (.stop 0) (State.resetWith 1)) = some [⟨.low, 564⟩] := by decide
theorem test_rest : schedAfter 0 (exec (.rest 0) (State.resetWith 1)) = some [] := by decide

/-! ### Single steps (S1 to S23) -/

theorem test_step_S1_S2 :
    stepRegs ⟨.idle, 0#32, 0#6, 0#14⟩ .quiet = some ⟨.idle, 0#32, 0#6, 0#14⟩ ∧
    stepRegs ⟨.idle, 0#32, 0#6, 0#14⟩ emitPorts = some ⟨.leadMark, 0x01FE40BF#32, 32#6, 9024#14⟩ := by decide
theorem test_step_S3_S4 :
    stepRegs ⟨.idle, 0#32, 0#6, 0#14⟩ ⟨false, true, 0x00#8, 0xFF#8⟩ =
      some ⟨.leadMark, 0x00FFFF00#32, 32#6, 9024#14⟩ ∧
    stepRegs ⟨.idle, 0#32, 0#6, 0#14⟩ ⟨true, true, 0x01#8, 0x40#8⟩ = some ⟨.idle, 0#32, 0#6, 0#14⟩ := by decide
theorem test_step_S5_S6_S7 :
    stepRegs ⟨.leadMark, 0x01FE40BF#32, 32#6, 9024#14⟩ .quiet = some ⟨.leadMark, 0x01FE40BF#32, 32#6, 9023#14⟩ ∧
    stepRegs ⟨.leadMark, 0x01FE40BF#32, 32#6, 2#14⟩ ⟨false, true, 0x55#8, 0xAA#8⟩ =
      some ⟨.leadMark, 0x01FE40BF#32, 32#6, 1#14⟩ ∧
    stepRegs ⟨.leadMark, 0x01FE40BF#32, 32#6, 1#14⟩ .quiet = some ⟨.leadSpace, 0x01FE40BF#32, 32#6, 4512#14⟩ := by
  decide
theorem test_step_S8_S9 :
    stepRegs ⟨.leadSpace, 0x01FE40BF#32, 32#6, 4512#14⟩ .quiet = some ⟨.leadSpace, 0x01FE40BF#32, 32#6, 4511#14⟩ ∧
    stepRegs ⟨.leadSpace, 0x01FE40BF#32, 32#6, 1#14⟩ .quiet = some ⟨.bitMark, 0x01FE40BF#32, 32#6, 564#14⟩ := by
  decide
theorem test_step_S10_S11_S12 :
    stepRegs ⟨.bitMark, 0x01FE40BF#32, 32#6, 1#14⟩ .quiet = some ⟨.bitSpace, 0x01FE40BF#32, 32#6, 564#14⟩ ∧
    stepRegs ⟨.bitMark, 0xFF205F80#32, 25#6, 1#14⟩ .quiet = some ⟨.bitSpace, 0xFF205F80#32, 25#6, 1692#14⟩ ∧
    stepRegs ⟨.bitMark, 0xFF205F80#32, 25#6, 300#14⟩ .quiet = some ⟨.bitMark, 0xFF205F80#32, 25#6, 299#14⟩ := by
  decide
theorem test_step_S13_S14_S15 :
    stepRegs ⟨.bitSpace, 0x01FE40BF#32, 32#6, 1#14⟩ .quiet = some ⟨.bitMark, 0x03FC817E#32, 31#6, 564#14⟩ ∧
    stepRegs ⟨.bitSpace, 0xFF205F80#32, 25#6, 1692#14⟩ .quiet = some ⟨.bitSpace, 0xFF205F80#32, 25#6, 1691#14⟩ ∧
    stepRegs ⟨.bitSpace, 0xFF205F80#32, 25#6, 1#14⟩ .quiet = some ⟨.bitMark, 0xFE40BF00#32, 24#6, 564#14⟩ := by
  decide
theorem test_step_S16_S17_S18 :
    stepRegs ⟨.bitSpace, 0x80000000#32, 1#6, 1#14⟩ .quiet = some ⟨.stopMark, 0#32, 0#6, 564#14⟩ ∧
    stepRegs ⟨.bitSpace, 0#32, 1#6, 1#14⟩ .quiet = some ⟨.stopMark, 0#32, 0#6, 564#14⟩ ∧
    stepRegs ⟨.bitSpace, 0x80000000#32, 2#6, 1#14⟩ .quiet = some ⟨.bitMark, 0#32, 1#6, 564#14⟩ := by decide
theorem test_step_S19_S20_S21 :
    stepRegs ⟨.stopMark, 0#32, 0#6, 564#14⟩ .quiet = some ⟨.stopMark, 0#32, 0#6, 563#14⟩ ∧
    stepRegs ⟨.stopMark, 0#32, 0#6, 1#14⟩ .quiet = some ⟨.idle, 0#32, 0#6, 0#14⟩ ∧
    stepRegs ⟨.stopMark, 0#32, 0#6, 1#14⟩ ⟨false, true, 0x01#8, 0x60#8⟩ = some ⟨.idle, 0#32, 0#6, 0#14⟩ := by decide
theorem test_step_S22_S23 :
    stepRegs ⟨.bitSpace, 0xFF205F80#32, 25#6, 900#14⟩ ⟨true, false, 0#8, 0#8⟩ = some ⟨.idle, 0#32, 0#6, 0#14⟩ ∧
    stepRegs ⟨.stopMark, 0#32, 0#6, 1#14⟩ ⟨true, false, 0#8, 0#8⟩ = some ⟨.idle, 0#32, 0#6, 0#14⟩ := by decide

/-! ### Operations one by one -/

theorem test_emit : regsAfter 0 (exec (.emit 0 0x01#8 0x40#8) (State.resetWith 1)) =
    some ⟨.leadMark, 0x01FE40BF#32, 32#6, 9024#14⟩ := by decide
theorem test_nop : regsAfter 0 (exec (.nop 0 0x01#8 0x40#8) (State.resetWith 1)) =
    some ⟨.idle, 0#32, 0#6, 0#14⟩ := by decide
theorem test_reset : regsAfter 0 (exec (.reset 0) (one ⟨.bitSpace, 0xFF205F80#32, 25#6, 900#14⟩ .quiet)) =
    some ⟨.idle, 0#32, 0#6, 0#14⟩ := by decide
theorem test_uBitMark_wrongBit_refused :
    refusalOf (exec (.uBitMark 0 true) (one ⟨.bitMark, 0x01FE40BF#32, 32#6, 1#14⟩ .quiet)) = some .notSelected := by
  decide
theorem test_idle_with_timer_refused :
    refusalOf (step (one ⟨.idle, 0#32, 0#6, 1#14⟩ .quiet)) = some .unreachableState := by decide
theorem test_E7_noSuchPin :
    refusalOf (exec (.emit 4 0x01#8 0x40#8) State.reset) = some .noSuchPin ∧
    refusalOf (step (State.reset.loadProgram [⟨0, 4, emitPorts⟩])) = some .noSuchPin := by decide

/-- P3 in its first tick: channel 0 is commanded, channel 1 is not. -/
theorem test_program_P3 :
    regsAfter 0 (step ((State.resetWith 2).loadProgram [(EmitCall.line ⟨0, 0x01#8, 0x40#8⟩ 0),
      (EmitCall.line ⟨1, 0x01#8, 0x50#8⟩ 10000)])) = some ⟨.leadMark, 0x01FE40BF#32, 32#6, 9024#14⟩ ∧
    regsAfter 1 (step ((State.resetWith 2).loadProgram [(EmitCall.line ⟨0, 0x01#8, 0x40#8⟩ 0),
      (EmitCall.line ⟨1, 0x01#8, 0x50#8⟩ 10000)])) = some ⟨.idle, 0#32, 0#6, 0#14⟩ := by decide

/-- The source's `selectInput("5,1")`, `("1,6")` and `("1,4")` (R54). -/
theorem test_selectInput :
    selectInput 5 1 = (none, 1) ∧ selectInput 1 6 = (none, 1) ∧
    selectInput 1 4 = (some ⟨Config.pinTable 1, 0x01#8, 0x50#8⟩, 0) := ⟨rfl, rfl, rfl⟩

/-- The truncation of an integer to a byte (R56). -/
theorem test_sendCommand : (sendCommand 1 0x101 0x240).1.map (fun e => (e.address, e.command)) =
    some (0x01#8, 0x40#8) := by decide

/-! ### Witnesses: for every statement with hypotheses, a state and operands that meet them all -/

/-- The one channel of `one`. -/
def ch (r : Regs) (p : Ports) : Channel := ⟨r, p, 0#32, []⟩

/-- Registers of the spec's example in each phase: in mid-interval (`n` ticks left), or on the last tick (`n = 1`). -/
def inLeadMark (n : BitVec 14) : Regs := ⟨.leadMark, 0x01FE40BF#32, 32#6, n⟩
def inLeadSpace (n : BitVec 14) : Regs := ⟨.leadSpace, 0x01FE40BF#32, 32#6, n⟩
def inBitMark (n : BitVec 14) : Regs := ⟨.bitMark, 0xFF205F80#32, 25#6, n⟩
def inBitSpace (n : BitVec 14) : Regs := ⟨.bitSpace, 0xFF205F80#32, 25#6, n⟩
def inLastBitSpace (n : BitVec 14) : Regs := ⟨.bitSpace, 0x80000000#32, 1#6, n⟩
def inStopMark (n : BitVec 14) : Regs := ⟨.stopMark, 0#32, 0#6, n⟩

/-- Registers to which the spec gives no meaning: `BIT_MARK` with `BITCNT = 0` (R30). -/
def noMeaning : Regs := ⟨.bitMark, 0#32, 0#6, 5#14⟩

/-- Two channels: channel 0 with the example's command on its port, channel 1 in flight and reset at tick 70000. -/
def two : State :=
  ⟨[ch Regs.idle emitPorts, ch (inBitSpace 900#14) .quiet], 0, [⟨70000, 0, ⟨true, false, 0#8, 0#8⟩⟩]⟩

/-- The same channel 0 with another neighbour and another line for it. -/
def two' : State :=
  ⟨[ch Regs.idle emitPorts, ch Regs.idle .quiet], 0,
    [⟨70000, 0, ⟨true, false, 0#8, 0#8⟩⟩, ⟨1, 1, emitPorts⟩]⟩

/-- A command that is followed by another in the first idle tick (P2). -/
def backToBack : State := ⟨[ch Regs.idle emitPorts], 0, [⟨68245, 0, ⟨false, true, 0x01#8, 0x60#8⟩⟩]⟩

theorem inv_idle : (State.resetWith 1).Inv :=
  ⟨by decide, fun c hc => by
    obtain rfl : c = Channel.reset := by simpa [State.resetWith] using hc
    exact ⟨0x00#8, 0x00#8, rfl, trivial⟩⟩

/-- The invariant holds in mid-frame (P1 at tick 24664). -/
theorem inv_inFlight : (State.mk [⟨inLeadMark 9024#14, .quiet, 0#32, []⟩] 0 []).Inv :=
  ⟨by decide, fun c hc => by
    obtain rfl : c = ⟨inLeadMark 9024#14, .quiet, 0#32, []⟩ := by simpa using hc
    exact ⟨0x01#8, 0x40#8, ⟨by decide, by decide, by decide, by decide⟩, rfl⟩⟩

theorem exists_next {α : Type} {r : Result α} (h : refusalOf r = none) : ∃ a, r = .next a := by
  cases r with
  | next a => exact ⟨a, rfl⟩
  | fault e => cases e
  | refused e => simp [refusalOf] at h

theorem witness_ResetChannelsAreIdleAndReady : 0 < 1 ∧ 3 < 4 := by decide
theorem witness_ResetSatisfiesTheInvariant : 0 < 1 := by decide
theorem witness_StepKeepsTheInvariant :
    (State.resetWith 1).Inv ∧ (∃ t, step (State.resetWith 1) = .next t) ∧
    (one (inLeadMark 9024#14) .quiet).Inv ∧ ∃ t, step (one (inLeadMark 9024#14) .quiet) = .next t :=
  ⟨inv_idle, exists_next (by decide), inv_inFlight, exists_next (by decide)⟩
theorem witness_InvariantBoundsTheCounters :
    (one (inLeadMark 9024#14) .quiet).Inv ∧
    (one (inLeadMark 9024#14) .quiet).channels[0]? = some (ch (inLeadMark 9024#14) .quiet) := ⟨inv_inFlight, rfl⟩
theorem witness_StepLeavesEveryChannelMeaningful :
    (∃ t, step two = .next t) ∧ (one noMeaning ⟨true, false, 0#8, 0#8⟩).wf = false ∧
    ∃ t, step (one noMeaning ⟨true, false, 0#8, 0#8⟩) = .next t :=
  ⟨exists_next (by decide), by decide, exists_next (by decide)⟩
theorem witness_IdleChannelHoldsNothing :
    (State.resetWith 1).Inv ∧ (State.resetWith 1).channels[0]? = some Channel.reset ∧
    Channel.reset.regs.phase = .idle := ⟨inv_idle, rfl, rfl⟩
theorem witness_TopBitIsFrameBitBelowCount :
    ((inBitMark 1#14).reachableWith 0x01FE40BF#32 ∧ (inBitMark 1#14).phase = .bitMark) ∧
    ((inLastBitSpace 1692#14).reachableWith 0x01FE40BF#32 ∧ (inLastBitSpace 1692#14).phase = .bitSpace) :=
  ⟨⟨⟨by decide, by decide, by decide, by decide, by decide⟩, rfl⟩,
    ⟨⟨by decide, by decide, by decide, by decide, by decide, by decide⟩, rfl⟩⟩
theorem witness_PositionAdvancesByAtMostOne :
    (∀ r ∈ [inLeadMark 2#14, inLeadMark 1#14, inLastBitSpace 1#14, inStopMark 1#14, Regs.idle],
      refusalOf (step (one r .quiet)) = none ∧ (one r .quiet).channels[0]? = some (ch r .quiet)) ∧
    Ports.quiet.rst = false ∧
    (inLeadMark 2#14).interval = some 0 ∧ 1 < (inLeadMark 2#14).timer.toNat ∧
    (inLastBitSpace 1#14).interval = some 65 ∧ (inLastBitSpace 1#14).timer.toNat = 1 ∧
    (inStopMark 1#14).interval = some 66 ∧ (inStopMark 1#14).timer.toNat = 1 ∧ Regs.idle.interval = none := by decide
theorem witness_ChannelsShareNothing :
    (∃ t, step two = .next t) ∧ (∃ t, step two' = .next t) ∧ two.channels[0]? = some (ch Regs.idle emitPorts) ∧
    two'.channels[0]? = some (ch Regs.idle emitPorts) ∧ two.channels[1]? ≠ two'.channels[1]? :=
  ⟨exists_next (by decide), exists_next (by decide), rfl, rfl, by decide⟩
theorem witness_WaveformIgnoresOtherChannels :
    two.channels[0]? = two'.channels[0]? ∧ two.tick = two'.tick ∧
    (two.program.filter fun l => l.chan == 0) = (two'.program.filter fun l => l.chan == 0) ∧
    (∃ t, steps 3 two = .next t) ∧ ∃ t, steps 3 two' = .next t :=
  ⟨rfl, rfl, by decide, exists_next (by decide), exists_next (by decide)⟩
theorem witness_EveryWordBitIsKept :
    decode 0 (.frame 0x01FE40BF#32) = .ok (.pack 0 0x01#8 0x40#8) ∧ decode 0 (.cmd 0x00102#17) = .ok (.nop 0 0x01#8 0x02#8) ∧
    decode 0 (.uop 0b0101#4) = .ok (.uLeadSpace 0 true) ∧ (∀ p bits, Code.frame 0x01FE40BF#32 ≠ .sym p bits) :=
  ⟨rfl, rfl, rfl, fun _ _ h => by cases h⟩
theorem witness_SymbolsAreSelectedByPosition : (1 ≤ 1 ∧ 1 ≤ 32) ∧ (1 ≤ 32 ∧ 32 ≤ 32) ∧ 34 ≤ 34 ∧ (33 = 0 ∨ 33 ≤ 33) := by
  decide
/-- `EMIT` before `RESET` in one tick, and the other order, with a second command after them. -/
def bothLines : State := ⟨[ch Regs.idle .quiet], 4, [(EmitCall.mk 0 0x01#8 0x40#8).line 5, resetLine 5 0]⟩
def bothLines' : State :=
  ⟨[ch Regs.idle .quiet], 4, [resetLine 5 0, (EmitCall.mk 0 0x01#8 0x40#8).line 5, (EmitCall.mk 0 0x01#8 0x60#8).line 5]⟩

/-- `RESET` wins over the `EMIT` of the same tick, in either order of the lines (R53, R103, Z2). -/
theorem test_emit_and_reset_in_one_tick :
    portsAt bothLines.program 5 0 = ⟨true, true, 0x01#8, 0x40#8⟩ ∧
    portsAt bothLines'.program 5 0 = ⟨true, true, 0x01#8, 0x40#8⟩ ∧
    regsAfter 0 (steps 2 bothLines) = some ⟨.idle, 0#32, 0#6, 0#14⟩ ∧
    regsAfter 0 (steps 2 bothLines') = some ⟨.idle, 0#32, 0#6, 0#14⟩ := by decide

theorem witness_ProgramDrivesThePorts :
    (∃ t, step bothLines = .next t) ∧ (∃ t, step bothLines' = .next t) ∧ resetLine 5 0 ∈ bothLines.program ∧
    (EmitCall.mk 0 0x01#8 0x40#8).line 5 ∈ bothLines.program ∧
    bothLines'.program =
      [resetLine 5 0] ++ (EmitCall.mk 0 0x01#8 0x40#8).line 5 :: [(EmitCall.mk 0 0x01#8 0x60#8).line 5] ∧
    (∀ m ∈ [resetLine 5 0], m.tick ≠ 5 ∨ m.chan ≠ 0 ∨ m.ports.start = false) ∧
    (∃ t, step backToBack = .next t) ∧ (∀ l ∈ backToBack.program, l.tick ≠ 1 ∨ l.chan ≠ 0) :=
  ⟨exists_next (by decide), exists_next (by decide), by decide, by decide, rfl, by decide, exists_next (by decide),
    by decide⟩
theorem witness_SelectInputExpandsToOneCall :
    (1 ≤ 1 ∧ 1 ≤ 4 ∧ 1 ≤ 1 ∧ 1 ≤ 5) ∧ (1 ≤ 4 ∧ 4 ≤ 4 ∧ 1 ≤ 5 ∧ 5 ≤ 5) ∧ ¬(1 ≤ 5 ∧ 5 ≤ 4 ∧ 1 ≤ 1 ∧ 1 ≤ 5) ∧
    ¬(1 ≤ 1 ∧ 1 ≤ 4 ∧ 1 ≤ 6 ∧ 6 ≤ 5) := by decide
theorem witness_PackIsInvertedByTwoFields : packFrame 0x01#8 0x40#8 = packFrame 0x01#8 0x40#8 ∧
    0x01FE40BF#32 = packFrame 0x01#8 0x40#8 := by decide
theorem witness_PackWritesTheBusAlone : two.channels[1]? = some (ch (inBitSpace 900#14) .quiet) := rfl
theorem witness_SymbolsContributeTheirIntervals : two.channels[1]? = some (ch (inBitSpace 900#14) .quiet) := rfl
theorem witness_SymbolStreamBuildsTheSchedule :
    two.channels[1]? = some (ch (inBitSpace 900#14) .quiet) ∧ (ch (inBitSpace 900#14) .quiet).sched = [] := ⟨rfl, rfl⟩
theorem witness_ScheduleIntervalByInterval : 0 ≤ 31 ∧ 31 ≤ 31 := by decide
theorem witness_ScheduleShape :
    (sched 0x01FE40BF#32)[66]? = some ⟨.low, 564⟩ ∧ (sched 0x01FE40BF#32)[65]? = some ⟨.high, 1692⟩ ∧ 31 ≤ 31 := by
  decide

theorem witness_UIdleAcceptsOrRests :
    (one Regs.idle emitPorts).channels[0]? = some (ch Regs.idle emitPorts) ∧
    (one Regs.idle .quiet).channels[0]? = some (ch Regs.idle .quiet) ∧ Regs.idle.wf = true ∧ Regs.idle.phase = .idle ∧
    emitPorts.rst = false ∧ emitPorts.start = true ∧ Ports.quiet.rst = false ∧ Ports.quiet.start = false := by decide
theorem witness_ULeadMarkCountsThenSpaces :
    ((one (inLeadMark 9024#14) .quiet).channels[0]? = some (ch (inLeadMark 9024#14) .quiet) ∧
      (inLeadMark 9024#14).wf = true ∧ 1 < (inLeadMark 9024#14).timer.toNat) ∧
    (one (inLeadMark 1#14) .quiet).channels[0]? = some (ch (inLeadMark 1#14) .quiet) ∧
      (inLeadMark 1#14).wf = true ∧ (inLeadMark 1#14).phase = .leadMark ∧ Ports.quiet.rst = false := by decide
theorem witness_ULeadSpaceCountsThenMarks :
    ((one (inLeadSpace 4512#14) .quiet).channels[0]? = some (ch (inLeadSpace 4512#14) .quiet) ∧
      (inLeadSpace 4512#14).wf = true ∧ 1 < (inLeadSpace 4512#14).timer.toNat) ∧
    (one (inLeadSpace 1#14) .quiet).channels[0]? = some (ch (inLeadSpace 1#14) .quiet) ∧
      (inLeadSpace 1#14).wf = true ∧ (inLeadSpace 1#14).phase = .leadSpace ∧ Ports.quiet.rst = false := by decide
theorem witness_UBitMarkCountsThenChoosesTheSpace :
    ((inBitMark 564#14).wf = true ∧ 1 < (inBitMark 564#14).timer.toNat) ∧
    ((one (inBitMark 1#14) .quiet).channels[0]? = some (ch (inBitMark 1#14) .quiet) ∧ (inBitMark 1#14).wf = true ∧
      (inBitMark 1#14).phase = .bitMark ∧ (inBitMark 1#14).shreg.getLsbD 31 = true) ∧
    (Regs.mk .bitMark 0x01FE40BF#32 32#6 1#14).wf = true ∧ (0x01FE40BF#32).getLsbD 31 = false ∧
    Ports.quiet.rst = false := by decide
theorem witness_UBitSpaceCountsThenShifts :
    ((inBitSpace 1692#14).wf = true ∧ 1 < (inBitSpace 1692#14).timer.toNat) ∧
    ((one (inBitSpace 1#14) .quiet).channels[0]? = some (ch (inBitSpace 1#14) .quiet) ∧ (inBitSpace 1#14).wf = true ∧
      (inBitSpace 1#14).phase = .bitSpace ∧ (inBitSpace 1#14).bitcnt ≠ 1#6) ∧
    (inLastBitSpace 1#14).wf = true ∧ (inLastBitSpace 1#14).bitcnt = 1#6 ∧ Ports.quiet.rst = false := by decide
theorem witness_UStopMarkCountsThenIdles :
    ((inStopMark 564#14).wf = true ∧ 1 < (inStopMark 564#14).timer.toNat) ∧
    (one (inStopMark 1#14) .quiet).channels[0]? = some (ch (inStopMark 1#14) .quiet) ∧
      (inStopMark 1#14).wf = true ∧ (inStopMark 1#14).phase = .stopMark ∧ Ports.quiet.rst = false := by decide

theorem witness_EmitPlaysItsSchedule :
    two.wf = true ∧ two.channels[0]? = some (ch Regs.idle emitPorts) ∧ Regs.idle.phase = .idle ∧ emitPorts.start = true ∧
    two.noResetWithin 0 (duration (sched 0x01FE40BF#32) + 1) = true ∧
    two.pinsValidWithin (duration (sched 0x01FE40BF#32) + 1) = true ∧
    packFrame emitPorts.address emitPorts.command = 0x01FE40BF#32 ∧ 1 ≤ 1 ∧
    1 ≤ duration (sched 0x01FE40BF#32) := by decide
theorem witness_SerializerPlaysEveryWord :
    (one ⟨.leadMark, 0x80000001#32, 32#6, 9024#14⟩ .quiet).wf = true ∧
    (one ⟨.leadMark, 0x80000001#32, 32#6, 9024#14⟩ .quiet).channels[0]? =
      some (ch ⟨.leadMark, 0x80000001#32, 32#6, 9024#14⟩ .quiet) ∧
    (one ⟨.leadMark, 0x80000001#32, 32#6, 9024#14⟩ .quiet).noResetWithin 0 (duration (sched 0x80000001#32)) = true ∧
    (one ⟨.leadMark, 0x80000001#32, 32#6, 9024#14⟩ .quiet).pinsValidWithin (duration (sched 0x80000001#32)) = true ∧
    0 < duration (sched 0x80000001#32) := by decide
theorem witness_TransmissionIgnoresItsPorts :
    two.channels[1]? = some (ch (inBitSpace 900#14) .quiet) ∧ (inBitSpace 900#14).busy = true ∧
    Ports.quiet.rst = false ∧ emitPorts.rst = false ∧ ∃ t, step two = .next t :=
  ⟨rfl, rfl, rfl, rfl, exists_next (by decide)⟩
theorem witness_CountersNeverWrap :
    (∀ r ∈ [inLeadMark 2#14, inBitSpace 1#14, inStopMark 1#14],
      refusalOf (step (one r .quiet)) = none ∧ (one r .quiet).channels[0]? = some (ch r .quiet)) ∧
    Ports.quiet.rst = false ∧ (inLeadMark 2#14).phase ≠ .idle ∧ (inBitSpace 1#14).phase ≠ .idle ∧
    1 < (inLeadMark 2#14).timer.toNat ∧ (inBitSpace 1#14).timer.toNat = 1 ∧ (inBitSpace 1#14).phase = .bitSpace ∧
    (inStopMark 1#14).timer.toNat = 1 ∧ (inStopMark 1#14).phase ≠ .bitSpace ∧ (inStopMark 1#14).phase ≠ .idle := by
  decide

theorem witness_EmitLoadsAnIdleChannel :
    two.channels[0]? = some (ch Regs.idle emitPorts) ∧ emitPorts.rst = false ∧ Regs.idle.wf = true ∧
    Regs.idle.phase = .idle := by decide
theorem witness_NopRestsOrLetsTheTransmissionAdvance :
    two.channels[0]? = some (ch Regs.idle emitPorts) ∧ Regs.idle.wf = true ∧
    two.channels[1]? = some (ch (inBitSpace 900#14) .quiet) ∧ (inBitSpace 900#14).wf = true ∧
    (inBitSpace 900#14).phase ≠ .idle ∧ Ports.quiet.rst = false ∧ emitPorts.rst = false := by decide
theorem witness_EveryEmitTakes68244Ticks :
    two.wf = true ∧ two.channels[0]? = some (ch Regs.idle emitPorts) ∧ Regs.idle.phase = .idle ∧ emitPorts.start = true ∧
    two.noResetWithin 0 68245 = true ∧ two.pinsValidWithin 68245 = true ∧ 0 ≤ 68245 := by decide
theorem witness_WaveformOfAnEmitIsItsSchedule :
    two.wf = true ∧ two.channels[0]? = some (ch Regs.idle emitPorts) ∧ Regs.idle.phase = .idle ∧ emitPorts.start = true ∧
    two.noResetWithin 0 68245 = true ∧ two.pinsValidWithin 68245 = true := by decide
theorem witness_BlockingCallReturnsAtTheFirstIdleTick :
    State.reset.channels.length ≤ (EmitCall.mk 4 0x01#8 0x40#8).pin ∧ two.wf = true ∧
    two.channels[1]? = some (ch (inBitSpace 900#14) .quiet) ∧ (inBitSpace 900#14).busy = true ∧
    two.channels[0]? = some (ch Regs.idle emitPorts) ∧ Regs.idle.busy = false ∧
    two.noResetWithin 0 68245 = true ∧ two.pinsValidWithin 68245 = true ∧ 1 ≤ 68245 := by decide

/-- The call drives the port of its channel alone, and not on a busy one. -/
theorem test_call_presents :
    ((EmitCall.mk 0 0x01#8 0x60#8).present two).channels[0]? = some (ch Regs.idle ⟨false, true, 0x01#8, 0x60#8⟩) ∧
    ((EmitCall.mk 0 0x01#8 0x60#8).present two).channels[1]? = two.channels[1]? ∧
    (EmitCall.mk 0 0x01#8 0x60#8).mayProceed two = true ∧ (EmitCall.mk 1 0x01#8 0x60#8).mayProceed two = false ∧
    (EmitCall.mk 2 0x01#8 0x60#8).mayProceed two = false := by decide
theorem witness_MissingChannelIsRefused :
    State.reset.channels.length ≤ (Instr.lead 4).pin ∧
    (State.reset.loadProgram [⟨0, 4, emitPorts⟩]).program = [⟨0, 4, emitPorts⟩] ∧
    (State.reset.loadProgram [⟨0, 4, emitPorts⟩]).tick = 0 ∧
    (State.reset.loadProgram [⟨0, 4, emitPorts⟩]).channels.length ≤ 4 := by decide
theorem witness_EmitIsIdempotent :
    two.wf = true ∧ two'.wf = true ∧ two.channels[0]? = some (ch Regs.idle emitPorts) ∧
    two'.channels[0]? = some (ch Regs.idle emitPorts) ∧ Regs.idle.phase = .idle ∧ emitPorts.start = true ∧
    two.noResetWithin 0 68245 = true ∧
    two'.noResetWithin 0 68245 = true ∧ two.pinsValidWithin 68245 = true ∧ two'.pinsValidWithin 68245 = true := by decide
theorem witness_BackToBackCommandsAreOneTickApart :
    backToBack.wf = true ∧ backToBack.channels[0]? = some (ch Regs.idle emitPorts) ∧
    Regs.idle.phase = .idle ∧ emitPorts.start = true ∧
    backToBack.noResetWithin 0 68246 = true ∧ backToBack.pinsValidWithin 68246 = true ∧
    (portsAt backToBack.program (backToBack.tick + 68245) 0).start = true := by decide
theorem witness_StartWhileBusyIsIgnoredAndNoted :
    (one (inLeadMark 8025#14) emitPorts).wf = true ∧ (one (inLeadMark 8025#14) emitPorts).addressesNoChannel = false ∧
    (one (inLeadMark 8025#14) emitPorts).channels[0]? = some (ch (inLeadMark 8025#14) emitPorts) ∧
    (inLeadMark 8025#14).busy = true ∧ emitPorts.rst = false ∧ emitPorts.start = true := by decide
theorem witness_StepAnswersNext : two.wf = true ∧ two.addressesNoChannel = false := by decide

theorem witness_ResetClearsFromEveryState :
    (one noMeaning ⟨true, true, 0#8, 0#8⟩).channels[0]? = some (ch noMeaning ⟨true, true, 0#8, 0#8⟩) := rfl
theorem witness_ResetCutsTheTransmissionShort :
    (one (inBitSpace 900#14) ⟨true, false, 0#8, 0#8⟩).channels[0]? =
      some (ch (inBitSpace 900#14) ⟨true, false, 0#8, 0#8⟩) ∧
    ∃ t, step (one (inBitSpace 900#14) ⟨true, false, 0#8, 0#8⟩) = .next t := ⟨rfl, exists_next (by decide)⟩
theorem witness_OperationsTouchOneChannel :
    (∃ t, exec (.emit 0 0x01#8 0x40#8) two = .next t) ∧ two.channels[(Instr.emit 0 0x01#8 0x40#8).pin]? =
      some (ch Regs.idle emitPorts) := ⟨exists_next (by decide), rfl⟩
theorem witness_PackAndSymbolsKeepTheRegisters :
    (∃ t, exec (.pack 1 0x01#8 0x40#8) two = .next t) ∧ (∃ t, exec (.lead 1) two = .next t) ∧
    two.channels[0]? = some (ch Regs.idle emitPorts) :=
  ⟨exists_next (by decide), exists_next (by decide), rfl⟩
theorem witness_MicroOpsKeepWhatTheyDoNotWrite :
    (∃ t, exec (.uBitSpace 1 true) two = .next t) ∧ two.channels[1]? = some (ch (inBitSpace 900#14) .quiet) ∧
    1 < (inBitSpace 900#14).timer.toNat ∧ (∃ t, exec (.uStopMark 0 true) (one (inStopMark 1#14) .quiet) = .next t) :=
  ⟨exists_next (by decide), rfl, by decide, exists_next (by decide)⟩
theorem witness_CompletedSymbolsAreRecorded :
    (∃ t, exec (.uLeadMark 0 false) (one (inLeadMark 1#14) .quiet) = .next t) ∧
    (∃ t, exec (.uLeadSpace 0 false) (one (inLeadSpace 1#14) .quiet) = .next t) ∧
    (∃ t, exec (.uBitMark 0 true) (one (inBitMark 1#14) .quiet) = .next t) ∧
    (∃ t, exec (.uBitSpace 0 true) (one (inBitSpace 1#14) .quiet) = .next t) ∧
    (∃ t, exec (.uStopMark 0 false) (one (inStopMark 1#14) .quiet) = .next t) :=
  ⟨exists_next (by decide), exists_next (by decide), exists_next (by decide), exists_next (by decide),
    exists_next (by decide)⟩
theorem witness_UnselectedMicroOpsAreRefused :
    two.channels[0]? = some (ch Regs.idle emitPorts) ∧ Regs.idle.phase ≠ .leadMark ∧
    two.channels[1]? = some (ch (inBitSpace 900#14) .quiet) ∧ (inBitSpace 900#14).phase ≠ .idle ∧
    (inBitMark 1#14).shreg.getLsbD 31 ≠ false := by decide
theorem witness_UnreachableRegistersAreRefused :
    (one noMeaning .quiet).channels[0]? = some (ch noMeaning .quiet) ∧ noMeaning.wf = false ∧
    Ports.quiet.rst = false ∧ (one noMeaning .quiet).addressesNoChannel = false := by decide
theorem witness_StepRunsTheDecodedOperation :
    (one (inBitSpace 900#14) .quiet).channels = [ch (inBitSpace 900#14) .quiet] ∧
    (one (inBitSpace 900#14) .quiet).addressesNoChannel = false ∧
    decode 0 (ch (inBitSpace 900#14) .quiet).selectWord = .ok (.uBitSpace 0 true) ∧
    (∃ t, step two = .next t) ∧ two.channels[1]? = some (ch (inBitSpace 900#14) .quiet) ∧
    decode 1 (ch (inBitSpace 900#14) .quiet).selectWord = .ok (.uBitSpace 1 true) :=
  ⟨rfl, by decide, rfl, exists_next (by decide), rfl, rfl⟩
theorem witness_PresentedCommandIsTheSelectedOperation :
    two.channels[0]? = some (ch Regs.idle emitPorts) ∧ emitPorts.rst = false ∧
    decode 0 (ch Regs.idle emitPorts).cmdCode = .ok (.emit 0 0x01#8 0x40#8) ∧
    decode 0 (ch Regs.idle emitPorts).selectWord = .ok (.uIdle 0 false) := ⟨rfl, rfl, rfl, rfl⟩
theorem witness_EachChannelStepsByItsPhase :
    (∃ t, step two = .next t) ∧ two.channels[0]? = some (ch Regs.idle emitPorts) ∧
    two.channels[1]? = some (ch (inBitSpace 900#14) .quiet) := ⟨exists_next (by decide), rfl, rfl⟩

end Sys2Proof.Tests
end

/-! PROOFS. State and reset (`10_state.md`): the registers after a tick as a function of the registers and the ports,
what that function keeps, and the obligations that follow from it. -/

namespace Sys2Proof.Machine

/-! ### The outputs follow the phase (R23, R24) -/

theorem Regs.out_eq_low_iff (r : Regs) :
    r.out = .low ↔ r.phase = .leadMark ∨ r.phase = .bitMark ∨ r.phase = .stopMark := by
  unfold Regs.out
  cases r.phase <;> decide

theorem Regs.out_eq_high_iff (r : Regs) :
    r.out = .high ↔ r.phase = .idle ∨ r.phase = .leadSpace ∨ r.phase = .bitSpace := by
  unfold Regs.out
  cases r.phase <;> decide

theorem Regs.busy_iff (r : Regs) : r.busy = true ↔ r.phase ≠ .idle := by
  simp [Regs.busy]

theorem Regs.ready_iff (r : Regs) : r.ready = true ↔ r.phase = .idle := by
  simp [Regs.ready, Regs.busy]

/-- Settles O3: each output is read off `PHASE`, and two registers with one phase have the same outputs. -/
theorem pinAndBusyFollowThePhase : Obligations.PinAndBusyFollowThePhase := by
  intro r
  refine ⟨r.out_eq_low_iff, r.out_eq_high_iff, r.busy_iff, r.ready_iff, fun r' h => ?_⟩
  exact ⟨by simp only [Regs.out, h], by simp only [Regs.busy, h]⟩

/-! ### The registers after a tick -/

/-- The registers after the last tick of an interval, in the spec's numbers (R75 to R79). -/
def Regs.endInterval (r : Regs) : Regs :=
  match r.phase with
  | .idle => r
  | .leadMark => ⟨.leadSpace, r.shreg, r.bitcnt, 4512#14⟩
  | .leadSpace => ⟨.bitMark, r.shreg, r.bitcnt, 564#14⟩
  | .bitMark => ⟨.bitSpace, r.shreg, r.bitcnt, if r.dataBit then 1692#14 else 564#14⟩
  | .bitSpace => ⟨if r.bitcnt = 1#6 then .stopMark else .bitMark, r.shreg <<< 1, r.bitcnt - 1#6, 564#14⟩
  | .stopMark => ⟨.idle, r.shreg, r.bitcnt, 0#14⟩

/-- The registers of a channel in flight after a tick without reset (R73). -/
def Regs.advance (r : Regs) : Regs := if r.counting then r.count else r.endInterval

/-- The registers after a tick, from the registers and the ports alone (R27, R73). -/
def Regs.next (r : Regs) (p : Ports) : Regs :=
  if p.rst then Regs.idle
  else if r.busy then r.advance
  else if p.start then Regs.loaded (packFrame p.address p.command)
  else r

theorem Channel.endInterval_regs (c : Channel) : c.endInterval.regs = c.regs.endInterval := by
  unfold Channel.endInterval Regs.endInterval
  cases c.regs.phase <;> simp

theorem Channel.advance_regs (c : Channel) : c.advance.regs = c.regs.advance := by
  unfold Channel.advance Regs.advance
  split
  · exact c.count_regs
  · exact c.endInterval_regs

/-- Where a channel's tick answers next, its registers are the function `Regs.next` of registers and ports. -/
theorem Channel.tick_regs {c c' : Channel} (h : c.tick = .next c') : c'.regs = c.regs.next c.ports := by
  rcases Channel.tick_eq_next.1 h with ⟨hr, rfl⟩ | ⟨hr, -, hb, rfl⟩ | ⟨hr, hi, hs, rfl⟩ | ⟨hr, hi, hs, rfl⟩
  · simp [Regs.next, hr]
  · simp [Regs.next, hr, hb, c.advance_regs]
  · simp [Regs.next, hr, hs, hi, Regs.busy]
  · simp [Regs.next, hr, hs, hi, Regs.busy]

theorem Regs.advance_of_counting {r : Regs} (h : 1 < r.timer.toNat) : r.advance = r.count := by
  simp [Regs.advance, Regs.counting, h]

theorem Regs.advance_of_last {r : Regs} (h : r.timer.toNat ≤ 1) : r.advance = r.endInterval := by
  simp [Regs.advance, Regs.counting, Nat.not_lt.2 h]

/-! ### One channel of a step -/

/-- Every channel after a step is a channel before it, ticked and given the next tick's ports. -/
theorem exists_tick_of_step {s t : State} {k : Nat} {c' : Channel} (h : step s = .next t)
    (hc' : t.channels[k]? = some c') :
    ∃ c u, s.channels[k]? = some c ∧ c.tick = .next u ∧
      c' = { u with ports := portsAt s.program (s.tick + 1) k } := by
  obtain ⟨-, -, -, hlen, hstep⟩ := step_eq_next.1 h
  obtain ⟨hlt, -⟩ := List.getElem?_eq_some_iff.1 hc'
  have hc : s.channels[k]? = some s.channels[k] := List.getElem?_eq_getElem (hlen ▸ hlt)
  obtain ⟨u, hu, htu⟩ := hstep k _ hc
  exact ⟨_, u, hc, hu, Option.some.inj (hc'.symm.trans htu)⟩

/-- Where a step answers next, a channel not in reset had registers with a meaning (R30, log entry 6). -/
theorem rst_or_wf_of_step {s t : State} {k : Nat} {c : Channel} (h : step s = .next t)
    (hc : s.channels[k]? = some c) : c.ports.rst = true ∨ c.regs.wf = true := by
  obtain ⟨-, -, -, -, hstep⟩ := step_eq_next.1 h
  obtain ⟨u, hu, -⟩ := hstep k c hc
  exact c.tick_next_iff.1 ⟨u, hu⟩

/-- A channel's registers and ports after a step: the first from its own registers and ports, the second from the
program's lines for the next tick. -/
theorem regs_and_ports_of_step {s t : State} {k : Nat} {c c' : Channel} (h : step s = .next t)
    (hc : s.channels[k]? = some c) (hc' : t.channels[k]? = some c') :
    c'.regs = c.regs.next c.ports ∧ c'.ports = portsAt s.program (s.tick + 1) k := by
  obtain ⟨c₀, u, hc₀, hu, rfl⟩ := exists_tick_of_step h hc'
  cases hc.symm.trans hc₀
  have hregs : u.regs = c.regs.next c.ports := Channel.tick_regs hu
  exact ⟨hregs, rfl⟩

/-- Settles O10: the next registers are `Regs.next` of the channel's registers and ports, in either system. -/
theorem channelsShareNothing : Obligations.ChannelsShareNothing := by
  intro s₁ s₂ t₁ t₂ k₁ k₂ c₁ c₂ d₁ d₂ h₁ h₂ hc₁ hc₂ hd₁ hd₂ hregs hports
  calc d₁.regs = c₁.regs.next c₁.ports := (regs_and_ports_of_step h₁ hc₁ hd₁).1
    _ = c₂.regs.next c₂.ports := by rw [hregs, hports]
    _ = d₂.regs := (regs_and_ports_of_step h₂ hc₂ hd₂).1.symm

/-! ### Two systems that agree on a channel (R27, R38) -/

/-- Two systems agree on channel `k`: the same tick, the same registers and ports of the channel, and the same lines of
the program for it. -/
structure AgreeOn (k : Nat) (s₁ s₂ : State) : Prop where
  channel : ∃ c₁ c₂, s₁.channels[k]? = some c₁ ∧ s₂.channels[k]? = some c₂ ∧
    c₁.regs = c₂.regs ∧ c₁.ports = c₂.ports
  tick : s₁.tick = s₂.tick
  lines : (s₁.program.filter fun l => l.chan == k) = s₂.program.filter fun l => l.chan == k

/-- Systems that agree on a channel show the same level on its pin. -/
theorem AgreeOn.outOf_eq {k : Nat} {s₁ s₂ : State} (h : AgreeOn k s₁ s₂) : s₁.outOf k = s₂.outOf k := by
  obtain ⟨c₁, c₂, hc₁, hc₂, hregs, -⟩ := h.channel
  simp [State.outOf, hc₁, hc₂, hregs]

/-- The same lines for a channel drive its ports alike. -/
theorem AgreeOn.portsAt_eq {k : Nat} {s₁ s₂ : State} (h : AgreeOn k s₁ s₂) :
    portsAt s₁.program (s₁.tick + 1) k = portsAt s₂.program (s₂.tick + 1) k := by
  rw [← portsAt_filter s₁.program, ← portsAt_filter s₂.program, h.lines, h.tick]

/-- A step of both systems keeps their agreement. -/
theorem AgreeOn.after_step {k : Nat} {s₁ s₂ t₁ t₂ : State} (h : AgreeOn k s₁ s₂) (h₁ : step s₁ = .next t₁)
    (h₂ : step s₂ = .next t₂) : AgreeOn k t₁ t₂ := by
  obtain ⟨-, htick₁, hprog₁, -, hch₁⟩ := step_eq_next.1 h₁
  obtain ⟨-, htick₂, hprog₂, -, hch₂⟩ := step_eq_next.1 h₂
  obtain ⟨c₁, c₂, hc₁, hc₂, hregs, hports⟩ := h.channel
  obtain ⟨u₁, hu₁, ht₁⟩ := hch₁ k c₁ hc₁
  obtain ⟨u₂, hu₂, ht₂⟩ := hch₂ k c₂ hc₂
  refine ⟨⟨_, _, ht₁, ht₂, ?_, h.portsAt_eq⟩, ?_, ?_⟩
  · show u₁.regs = u₂.regs
    rw [Channel.tick_regs hu₁, Channel.tick_regs hu₂, hregs, hports]
  · rw [htick₁, htick₂, h.tick]
  · rw [hprog₁, hprog₂, h.lines]

/-- Runs of the same length keep the agreement. -/
theorem AgreeOn.after_steps {k n : Nat} {s₁ s₂ t₁ t₂ : State} (h : AgreeOn k s₁ s₂)
    (h₁ : steps n s₁ = .next t₁) (h₂ : steps n s₂ = .next t₂) : AgreeOn k t₁ t₂ := by
  induction n generalizing s₁ s₂ with
  | zero =>
    cases h₁
    cases h₂
    exact h
  | succ n ih =>
    obtain ⟨u₁, hu₁, ht₁⟩ := andThen_eq_next.1 h₁
    obtain ⟨u₂, hu₂, ht₂⟩ := andThen_eq_next.1 h₂
    exact ih (h.after_step hu₁ hu₂) ht₁ ht₂

/-- The waveform at the end of a run is the level of the state reached. -/
theorem waveform_of_steps {s t : State} {n : Nat} (h : steps n s = .next t) (k : Nat) :
    waveform s k n = t.outOf k := by
  simp [waveform, h]

/-- Settles O11: agreement on the channel is kept along both runs, and the level depends on it alone. -/
theorem waveformIgnoresOtherChannels : Obligations.WaveformIgnoresOtherChannels := by
  intro s₁ s₂ k c₁ c₂ hc₁ hc₂ hregs hports htick hlines n t₁ t₂ h₁ h₂
  have hagree : AgreeOn k s₁ s₂ := ⟨⟨c₁, c₂, hc₁, hc₂, hregs, hports⟩, htick, hlines⟩
  rw [waveform_of_steps h₁, waveform_of_steps h₂, (hagree.after_steps h₁ h₂).outOf_eq]

/-! ### The registers of a transmission of one word (R25) -/

theorem Regs.reachableWith_idle {r : Regs} {f : Frame} (h : r.phase = .idle) :
    r.reachableWith f ↔ r = Regs.idle := by
  simp only [Regs.reachableWith, h]

theorem Regs.reachableWith_leadMark {r : Regs} {f : Frame} (h : r.phase = .leadMark) :
    r.reachableWith f ↔ r.shreg = f ∧ r.bitcnt = 32#6 ∧ 1 ≤ r.timer.toNat ∧ r.timer.toNat ≤ 9024 := by
  simp only [Regs.reachableWith, h]

theorem Regs.reachableWith_leadSpace {r : Regs} {f : Frame} (h : r.phase = .leadSpace) :
    r.reachableWith f ↔ r.shreg = f ∧ r.bitcnt = 32#6 ∧ 1 ≤ r.timer.toNat ∧ r.timer.toNat ≤ 4512 := by
  simp only [Regs.reachableWith, h]

theorem Regs.reachableWith_bitMark {r : Regs} {f : Frame} (h : r.phase = .bitMark) :
    r.reachableWith f ↔ 1 ≤ r.bitcnt.toNat ∧ r.bitcnt.toNat ≤ 32 ∧ r.shreg = f <<< (32 - r.bitcnt.toNat) ∧
      1 ≤ r.timer.toNat ∧ r.timer.toNat ≤ 564 := by
  simp only [Regs.reachableWith, h]

/-- The bound on `TIMER` in a space, bit by bit (R25 (e)) and at once (R64). -/
theorem le_space_iff (b : Bool) (n : Nat) :
    (b = false → n ≤ 564) ∧ (b = true → n ≤ 1692) ↔ n ≤ if b then 1692 else 564 := by
  cases b <;> simp

/-- The value that starts a space is within its bound. -/
theorem space_timer_bounds (b : Bool) :
    1 ≤ (if b then 1692#14 else 564#14).toNat ∧
      (if b then 1692#14 else 564#14).toNat ≤ if b then 1692 else 564 := by
  cases b <;> decide

theorem Regs.reachableWith_bitSpace {r : Regs} {f : Frame} (h : r.phase = .bitSpace) :
    r.reachableWith f ↔ 1 ≤ r.bitcnt.toNat ∧ r.bitcnt.toNat ≤ 32 ∧ r.shreg = f <<< (32 - r.bitcnt.toNat) ∧
      1 ≤ r.timer.toNat ∧ r.timer.toNat ≤ if r.dataBit then 1692 else 564 := by
  rw [← le_space_iff]
  simp only [Regs.reachableWith, h, Regs.dataBit]

theorem Regs.reachableWith_stopMark {r : Regs} {f : Frame} (h : r.phase = .stopMark) :
    r.reachableWith f ↔ r.shreg = 0#32 ∧ r.bitcnt = 0#6 ∧ 1 ≤ r.timer.toNat ∧ r.timer.toNat ≤ 564 := by
  simp only [Regs.reachableWith, h]

theorem Regs.loaded_reachableWith (f : Frame) : (Regs.loaded f).reachableWith f :=
  (Regs.reachableWith_leadMark rfl).2 ⟨rfl, rfl, by simp, by simp⟩

/-- In the two phases of a data bit the registers hold `f` without its bits already sent (R18, R25 (d), (e)). -/
theorem Regs.shreg_of_reachableWith {r : Regs} {f : Frame} (h : r.reachableWith f)
    (hp : r.phase = .bitMark ∨ r.phase = .bitSpace) :
    1 ≤ r.bitcnt.toNat ∧ r.bitcnt.toNat ≤ 32 ∧ r.shreg = f <<< (32 - r.bitcnt.toNat) := by
  rcases hp with hp | hp
  · obtain ⟨h1, h32, hsh, -⟩ := (Regs.reachableWith_bitMark hp).1 h
    exact ⟨h1, h32, hsh⟩
  · obtain ⟨h1, h32, hsh, -⟩ := (Regs.reachableWith_bitSpace hp).1 h
    exact ⟨h1, h32, hsh⟩

/-- Settles O8: `SHREG` is the frame shifted so that bit `BITCNT - 1` stands on top. -/
theorem topBitIsFrameBitBelowCount : Obligations.TopBitIsFrameBitBelowCount := by
  intro r f h hp
  obtain ⟨h1, h32, hsh⟩ := Regs.shreg_of_reachableWith h hp
  rw [hsh, shiftLeft_top f h1 h32]

/-! ### Registers with a meaning are those of a transmission of some word (R25, R72) -/

/-- A word that a shift by `n` clears is some word shifted by `32 - n`. -/
theorem eq_ushiftRight_shiftLeft {x : BitVec 32} {n : Nat} (hn : n ≤ 32) (h : x <<< n = 0#32) :
    x = (x >>> (32 - n)) <<< (32 - n) := by
  refine BitVec.eq_of_getLsbD_eq fun i hi => ?_
  rw [BitVec.getLsbD_shiftLeft, BitVec.getLsbD_ushiftRight]
  by_cases hlow : i < 32 - n
  · have hbit : (x <<< n).getLsbD (i + n) = x.getLsbD i := by
      rw [BitVec.getLsbD_shiftLeft, Nat.add_sub_cancel]
      simp [show i + n < 32 by omega]
    rw [← hbit, h]
    simp [hlow]
  · rw [show 32 - n + (i - (32 - n)) = i by omega]
    simp [hlow, hi]

/-- `SHREG <<< n = 0`, by which the model checks R25 (d) and (e), says that `SHREG` is some word shifted by `32 - n`. -/
theorem shiftLeft_eq_zero_iff {x : BitVec 32} {n : Nat} (hn : n ≤ 32) :
    x <<< n = 0#32 ↔ ∃ f : Frame, x = f <<< (32 - n) := by
  refine ⟨fun h => ⟨_, eq_ushiftRight_shiftLeft hn h⟩, ?_⟩
  rintro ⟨f, rfl⟩
  exact shiftLeft_shiftLeft_eq_zero f hn

/-- The spec gives registers a meaning exactly where they are those of a transmission of some 32-bit word. -/
theorem Regs.wf_iff_exists_reachableWith (r : Regs) : r.wf = true ↔ ∃ f, r.reachableWith f := by
  cases hp : r.phase with
  | idle => simp [Regs.wf_idle hp, Regs.reachableWith_idle hp]
  | leadMark => simp [Regs.wf_leadMark hp, Regs.reachableWith_leadMark hp]
  | leadSpace => simp [Regs.wf_leadSpace hp, Regs.reachableWith_leadSpace hp]
  | stopMark => simp [Regs.wf_stopMark hp, Regs.reachableWith_stopMark hp]
  | bitMark =>
    simp only [Regs.wf_bitMark hp, Regs.reachableWith_bitMark hp, exists_and_left, exists_and_right]
    exact and_congr_right fun _ => and_congr_right fun h32 => and_congr_left' (shiftLeft_eq_zero_iff h32)
  | bitSpace =>
    simp only [Regs.wf_bitSpace hp, Regs.reachableWith_bitSpace hp, exists_and_left, exists_and_right]
    exact and_congr_right fun _ => and_congr_right fun h32 => and_congr_left' (shiftLeft_eq_zero_iff h32)

/-- A reachable channel has registers with a meaning. -/
theorem Channel.wf_of_reachable {c : Channel} (h : c.reachable) : c.regs.wf = true := by
  obtain ⟨a, d, hregs, -⟩ := h
  exact c.regs.wf_iff_exists_reachableWith.2 ⟨_, hregs⟩

/-- Every channel of a system under the invariant has registers with a meaning. -/
theorem State.Inv.wf_of_getElem? {s : State} {k : Nat} {c : Channel} (h : s.Inv) (hc : s.channels[k]? = some c) :
    c.regs.wf = true :=
  Channel.wf_of_reachable (h.2 c (List.mem_of_getElem? hc))

/-- Settles O7: `(IDLE, 0, 0, 0)` is the one idle state with a meaning. -/
theorem idleChannelHoldsNothing : Obligations.IdleChannelHoldsNothing := by
  intro s k c hinv hc hp
  exact c.regs.eq_idle_of_wf (hinv.wf_of_getElem? hc) hp

/-! ### The bounds of the counters (R25) -/

theorem Regs.timer_eq_zero_iff {r : Regs} (hw : r.wf = true) : r.timer = 0#14 ↔ r.phase = .idle := by
  constructor
  · intro ht
    by_contra hp
    have := Regs.one_le_timer hw (r.busy_iff.2 hp)
    simp [ht] at this
  · intro hp
    rw [r.eq_idle_of_wf hw hp]
    rfl

theorem Regs.bitcnt_eq_zero_iff {r : Regs} (hw : r.wf = true) :
    r.bitcnt = 0#6 ↔ r.phase = .idle ∨ r.phase = .stopMark := by
  have hne : 1 ≤ r.bitcnt.toNat → r.bitcnt ≠ 0#6 := by
    rintro h1 h0
    simp [h0] at h1
  cases hp : r.phase with
  | idle => simp [(Regs.wf_idle hp).1 hw, Regs.idle]
  | leadMark => simp [((Regs.wf_leadMark hp).1 hw).1]
  | leadSpace => simp [((Regs.wf_leadSpace hp).1 hw).1]
  | bitMark => simpa using hne ((Regs.wf_bitMark hp).1 hw).1
  | bitSpace => simpa using hne ((Regs.wf_bitSpace hp).1 hw).1
  | stopMark => simp [((Regs.wf_stopMark hp).1 hw).2.1]

/-- No interval is longer than the lead mark, and no word has more than 32 bits. -/
theorem Regs.counters_le {r : Regs} (hw : r.wf = true) : r.timer.toNat ≤ 9024 ∧ r.bitcnt.toNat ≤ 32 := by
  cases hp : r.phase with
  | idle => simp [(Regs.wf_idle hp).1 hw, Regs.idle]
  | leadMark =>
    obtain ⟨hn, -, ht⟩ := (Regs.wf_leadMark hp).1 hw
    exact ⟨ht, by simp [hn]⟩
  | leadSpace =>
    obtain ⟨hn, -, ht⟩ := (Regs.wf_leadSpace hp).1 hw
    exact ⟨by omega, by simp [hn]⟩
  | bitMark =>
    obtain ⟨-, hn, -, -, ht⟩ := (Regs.wf_bitMark hp).1 hw
    exact ⟨by omega, hn⟩
  | bitSpace =>
    obtain ⟨-, hn, -, -, ht⟩ := (Regs.wf_bitSpace hp).1 hw
    refine ⟨?_, hn⟩
    split at ht <;> omega
  | stopMark =>
    obtain ⟨-, hn, -, ht⟩ := (Regs.wf_stopMark hp).1 hw
    exact ⟨by omega, by simp [hn]⟩

/-- Settles O5: under the invariant every channel has a meaning, and the rest holds of all registers with one. -/
theorem invariantBoundsTheCounters : Obligations.InvariantBoundsTheCounters := by
  intro s k c hinv hc
  have hw := hinv.wf_of_getElem? hc
  exact ⟨hw, Regs.timer_eq_zero_iff hw, Regs.bitcnt_eq_zero_iff hw, Regs.counters_le hw⟩

/-! ### A transmission advances (R73, R75 to R79) -/

/-- Counting stays within the same interval of the same word. -/
theorem Regs.count_reachableWith {r : Regs} {f : Frame} (h : r.reachableWith f) (ht : 1 < r.timer.toNat) :
    r.count.reachableWith f := by
  have hcount := r.count_timer_toNat (by simpa [Regs.counting] using ht)
  cases hp : r.phase with
  | idle =>
    rw [(Regs.reachableWith_idle hp).1 h] at ht
    exact absurd ht (by decide)
  | leadMark =>
    obtain ⟨hsh, hn, -, hle⟩ := (Regs.reachableWith_leadMark hp).1 h
    exact (Regs.reachableWith_leadMark (r := r.count) hp).2 ⟨hsh, hn, by omega, by omega⟩
  | leadSpace =>
    obtain ⟨hsh, hn, -, hle⟩ := (Regs.reachableWith_leadSpace hp).1 h
    exact (Regs.reachableWith_leadSpace (r := r.count) hp).2 ⟨hsh, hn, by omega, by omega⟩
  | bitMark =>
    obtain ⟨h1, h32, hsh, -, hle⟩ := (Regs.reachableWith_bitMark hp).1 h
    exact (Regs.reachableWith_bitMark (r := r.count) hp).2 ⟨h1, h32, hsh, by omega, by omega⟩
  | bitSpace =>
    obtain ⟨h1, h32, hsh, -, hle⟩ := (Regs.reachableWith_bitSpace hp).1 h
    exact (Regs.reachableWith_bitSpace (r := r.count) hp).2 
      ⟨h1, h32, hsh, by omega, hcount ▸ (Nat.sub_le _ 1).trans hle⟩
  | stopMark =>
    obtain ⟨hsh, hn, -, hle⟩ := (Regs.reachableWith_stopMark hp).1 h
    exact (Regs.reachableWith_stopMark (r := r.count) hp).2 ⟨hsh, hn, by omega, by omega⟩

/-- The last tick of an interval leaves the registers of the next interval of the same word. -/
theorem Regs.endInterval_reachableWith {r : Regs} {f : Frame} (h : r.reachableWith f) :
    r.endInterval.reachableWith f := by
  unfold Regs.endInterval
  cases hp : r.phase with
  | idle => exact h
  | leadMark =>
    obtain ⟨hsh, hn, -, -⟩ := (Regs.reachableWith_leadMark hp).1 h
    exact (Regs.reachableWith_leadSpace rfl).2 ⟨hsh, hn, by simp, by simp⟩
  | leadSpace =>
    obtain ⟨hsh, hn, -, -⟩ := (Regs.reachableWith_leadSpace hp).1 h
    exact (Regs.reachableWith_bitMark rfl).2 (by simp [hsh, hn])
  | bitMark =>
    obtain ⟨h1, h32, hsh, -, -⟩ := (Regs.reachableWith_bitMark hp).1 h
    exact (Regs.reachableWith_bitSpace rfl).2 ⟨h1, h32, hsh, space_timer_bounds r.dataBit⟩
  | bitSpace =>
    obtain ⟨h1, h32, hsh, -, -⟩ := (Regs.reachableWith_bitSpace hp).1 h
    by_cases hlast : r.bitcnt = 1#6
    · simp only [hlast, if_true]
      refine (Regs.reachableWith_stopMark rfl).2 ⟨?_, rfl, by simp, by simp⟩
      have hzero : r.shreg <<< r.bitcnt.toNat = 0#32 := hsh ▸ shiftLeft_shiftLeft_eq_zero f h32
      simpa [hlast] using hzero
    · have h2 := two_le_of_ne_one h1 hlast
      simp only [hlast, if_false]
      refine (Regs.reachableWith_bitMark rfl).2 ?_
      simp only [bitcnt_pred_toNat h1]
      refine ⟨by omega, by omega, ?_, by decide, by decide⟩
      rw [hsh, ← BitVec.shiftLeft_add]
      congr 1
      omega
  | stopMark =>
    obtain ⟨hsh, hn, -, -⟩ := (Regs.reachableWith_stopMark hp).1 h
    exact (Regs.reachableWith_idle rfl).2 (by simp [hsh, hn, Regs.idle])

/-- A tick of a transmission keeps its word. -/
theorem Regs.advance_reachableWith {r : Regs} {f : Frame} (h : r.reachableWith f) : r.advance.reachableWith f := by
  rcases Nat.lt_or_ge 1 r.timer.toNat with ht | ht
  · rw [Regs.advance_of_counting ht]
    exact Regs.count_reachableWith h ht
  · rw [Regs.advance_of_last ht]
    exact Regs.endInterval_reachableWith h

/-- A tick that answers next leaves registers with a meaning, whatever the ports. -/
theorem Regs.next_wf {r : Regs} {p : Ports} (h : p.rst = true ∨ r.wf = true) : (r.next p).wf = true := by
  unfold Regs.next
  split_ifs with hrst hbusy hstart
  · exact Regs.idle_wf
  · obtain ⟨f, hf⟩ := r.wf_iff_exists_reachableWith.1 (h.resolve_left hrst)
    exact r.advance.wf_iff_exists_reachableWith.2 ⟨f, Regs.advance_reachableWith hf⟩
  · exact (Regs.loaded _).wf_iff_exists_reachableWith.2 ⟨_, Regs.loaded_reachableWith _⟩
  · exact h.resolve_left hrst

/-- Settles O6: a channel whose tick answers next was reset or had a meaning, and either way has one after it. -/
theorem stepLeavesEveryChannelMeaningful : Obligations.StepLeavesEveryChannelMeaningful := by
  intro s t h
  refine List.all_eq_true.2 fun c' hmem => ?_
  obtain ⟨k, hc'⟩ := List.getElem?_of_mem hmem
  obtain ⟨c, u, hc, hu, rfl⟩ := exists_tick_of_step h hc'
  show u.regs.wf = true
  rw [Channel.tick_regs hu]
  exact Regs.next_wf (rst_or_wf_of_step h hc)

/-! ### The record of a transmission (log entry 13) and the invariant -/

/-- The record after one more data symbol. -/
theorem record_append_bitIntervals (f : Frame) {n : Nat} (h1 : 1 ≤ n) (h32 : n ≤ 32) :
    leadIntervals ++ ((bitsDown f 32).take (32 - n)).flatMap bitIntervals ++ bitIntervals (f.getLsbD (n - 1)) =
      leadIntervals ++ ((bitsDown f 32).take (32 - (n - 1))).flatMap bitIntervals := by
  rw [take_bitsDown_succ f h1 h32, List.flatMap_append, List.append_assoc]
  simp

/-- The last tick of an interval brings the record up to the interval that follows. -/
theorem Channel.endInterval_recordOf {c : Channel} {f : Frame} (h : c.regs.reachableWith f) (hrec : c.recordOf f) :
    c.endInterval.recordOf f := by
  unfold Channel.recordOf at hrec
  cases hp : c.regs.phase with
  | idle => simp [Channel.recordOf, Channel.endInterval, hp]
  | leadMark => simpa [Channel.recordOf, Channel.endInterval, hp] using hrec
  | leadSpace =>
    obtain ⟨-, hn, -, -⟩ := (Regs.reachableWith_leadSpace hp).1 h
    simp only [hp] at hrec
    simp [Channel.recordOf, Channel.endInterval, hp, hrec, hn]
  | bitMark => simpa [Channel.recordOf, Channel.endInterval, hp] using hrec
  | bitSpace =>
    obtain ⟨h1, h32, hsh⟩ := Regs.shreg_of_reachableWith h (.inr hp)
    have hbit : c.regs.dataBit = f.getLsbD (c.regs.bitcnt.toNat - 1) := by
      rw [Regs.dataBit, hsh, shiftLeft_top f h1 h32]
    simp only [hp] at hrec
    have hsched : c.endBitSpace.sched =
        leadIntervals ++ ((bitsDown f 32).take (32 - (c.regs.bitcnt.toNat - 1))).flatMap bitIntervals := by
      rw [Channel.endBitSpace_sched, hrec, hbit, record_append_bitIntervals f h1 h32]
    by_cases hlast : c.regs.bitcnt = 1#6
    · have hall : (bitsDown f 32).take 32 = bitsDown f 32 := List.take_of_length_le (by simp)
      simpa [Channel.recordOf, Channel.endInterval, hp, hlast, hall] using hsched
    · simp only [Channel.recordOf, Channel.endInterval, hp, Channel.endBitSpace_regs, hlast, if_false,
        bitcnt_pred_toNat h1]
      exact hsched
  | stopMark => simp [Channel.recordOf, Channel.endInterval, hp]

/-- A tick of a transmission keeps the record in step with the registers. -/
theorem Channel.advance_recordOf {c : Channel} {f : Frame} (h : c.regs.reachableWith f) (hrec : c.recordOf f) :
    c.advance.recordOf f := by
  rcases Nat.lt_or_ge 1 c.regs.timer.toNat with ht | ht
  · rw [Channel.advance_of_counting ht]
    exact hrec
  · rw [Channel.advance_of_last ht]
    exact Channel.endInterval_recordOf h hrec

/-- A channel with idle registers is reachable, whatever its record. -/
theorem Channel.reachable_of_idle {c : Channel} (h : c.regs = Regs.idle) : c.reachable := by
  have hp : c.regs.phase = .idle := by rw [h]; rfl
  exact ⟨0#8, 0#8, (Regs.reachableWith_idle hp).2 h, by simp [Channel.recordOf, hp]⟩

/-- A channel's tick keeps it reachable: a transmission goes on with its word, and an acceptance begins one. -/
theorem Channel.reachable_of_tick {c c' : Channel} (h : c.tick = .next c') (hc : c.reachable) : c'.reachable := by
  rcases Channel.tick_eq_next.1 h with ⟨-, rfl⟩ | ⟨-, -, -, rfl⟩ | ⟨-, -, -, rfl⟩ | ⟨-, -, -, rfl⟩
  · exact Channel.reachable_of_idle c.clear_regs
  · obtain ⟨a, d, hregs, hrec⟩ := hc
    refine ⟨a, d, ?_, Channel.advance_recordOf hregs hrec⟩
    rw [Channel.advance_regs]
    exact Regs.advance_reachableWith hregs
  · exact ⟨c.ports.address, c.ports.command, Regs.loaded_reachableWith _, rfl⟩
  · exact hc

/-- Settles O4: every channel's tick keeps it reachable, and the next tick's ports do not matter to that. -/
theorem stepKeepsTheInvariant : Obligations.StepKeepsTheInvariant := by
  rintro s t ⟨hne, hreach⟩ h
  obtain ⟨-, -, -, hlen, -⟩ := step_eq_next.1 h
  refine ⟨?_, fun c' hmem => ?_⟩
  · rwa [← List.length_pos_iff, hlen, List.length_pos_iff]
  · obtain ⟨k, hc'⟩ := List.getElem?_of_mem hmem
    obtain ⟨c, u, hc, hu, rfl⟩ := exists_tick_of_step h hc'
    have hu' : u.reachable := Channel.reachable_of_tick hu (hreach c (List.mem_of_getElem? hc))
    exact hu'

/-! ### The reset state (R29) -/

theorem State.resetWith_getElem? {n k : Nat} (h : k < n) : (State.resetWith n).channels[k]? = some Channel.reset := by
  simp [State.resetWith, h]

/-- Settles O2: every channel of the reset state is idle. -/
theorem resetSatisfiesTheInvariant : Obligations.ResetSatisfiesTheInvariant := by
  intro n hn
  refine ⟨?_, fun c hc => ?_⟩
  · simpa [State.resetWith] using Nat.ne_of_gt hn
  · rw [List.eq_of_mem_replicate hc]
    exact Channel.reachable_of_idle rfl

/-- `EMIT` on an idle channel without reset is its acceptance (R87). -/
theorem exec_emit_of_idle {s : State} {k : Nat} {c : Channel} (hc : s.channels[k]? = some c)
    (hrst : c.ports.rst = false) (hidle : c.regs = Regs.idle) (a d : Byte) :
    exec (.emit k a d) s = .next (s.setChannel k (c.accept a d)) :=
  onChannel_eq_next.2 ⟨c, _, hc, commandTick_eq_next.2 (.inr (.inr ⟨hrst, hidle, rfl⟩)), rfl⟩

/-- Settles O1: the reset state's channels are idle with `rst = 0` on their ports, so `EMIT` is accepted. -/
theorem resetChannelsAreIdleAndReady : Obligations.ResetChannelsAreIdleAndReady := by
  intro n k hk
  have hc := State.resetWith_getElem? hk
  refine ⟨Channel.reset, hc, rfl, rfl, rfl, fun a d => ?_⟩
  refine ⟨_, Channel.reset.accept a d, exec_emit_of_idle hc rfl rfl a d, ?_, rfl⟩
  simp [State.resetWith, hk]

/-! ### The sequencer position (R22) -/

theorem Regs.interval_eq_none_iff (r : Regs) : r.interval = none ↔ r.phase = .idle := by
  unfold Regs.interval
  cases r.phase <;> simp

/-- The last tick of an interval moves the position to the next interval, and after interval 66 to `IDLE`. -/
theorem Regs.endInterval_interval {r : Regs} {i : Nat} (hw : r.wf = true) (hi : r.interval = some i) :
    r.endInterval.interval = if i < 66 then some (i + 1) else none := by
  unfold Regs.interval at hi
  unfold Regs.endInterval
  cases hp : r.phase with
  | idle => simp [hp] at hi
  | leadMark =>
    simp only [hp, Option.some.injEq] at hi
    subst hi
    rfl
  | leadSpace =>
    simp only [hp, Option.some.injEq] at hi
    subst hi
    obtain ⟨hn, -, -⟩ := (Regs.wf_leadSpace hp).1 hw
    simp [Regs.interval, hn]
  | bitMark =>
    simp only [hp, Option.some.injEq] at hi
    obtain ⟨h1, h32, -⟩ := (Regs.wf_bitMark hp).1 hw
    have hlt : i < 66 := by omega
    simp only [Regs.interval, hlt, if_true]
    congr 1
    omega
  | bitSpace =>
    simp only [hp, Option.some.injEq] at hi
    obtain ⟨h1, h32, -⟩ := (Regs.wf_bitSpace hp).1 hw
    have hlt : i < 66 := by omega
    rw [if_pos hlt]
    by_cases hlast : r.bitcnt = 1#6
    · simp [Regs.interval, hlast, ← hi]
    · have h2 := two_le_of_ne_one h1 hlast
      simp only [Regs.interval, hlast, if_false, bitcnt_pred_toNat h1]
      congr 1
      omega
  | stopMark =>
    simp only [hp, Option.some.injEq] at hi
    subst hi
    rfl

/-- Settles O9: in flight the channel counts or ends its interval; idle it loads or rests. -/
theorem positionAdvancesByAtMostOne : Obligations.PositionAdvancesByAtMostOne := by
  intro s t k c c' h hc hc' hrst
  have hw : c.regs.wf = true := (rst_or_wf_of_step h hc).resolve_left (by simp [hrst])
  rw [(regs_and_ports_of_step h hc hc').1]
  constructor
  · intro i hi
    have hbusy : c.regs.busy = true :=
      c.regs.busy_iff.2 fun hp => by simp [c.regs.interval_eq_none_iff.2 hp] at hi
    have hnext : c.regs.next c.ports = c.regs.advance := by simp [Regs.next, hrst, hbusy]
    have hlast : c.regs.timer.toNat = 1 → c.regs.advance = c.regs.endInterval :=
      fun h1 => Regs.advance_of_last (le_of_eq h1)
    rw [hnext]
    refine ⟨fun ht => ?_, fun ht hlt => ?_, fun ht heq => ?_⟩
    · rw [Regs.advance_of_counting ht]
      exact hi
    · rw [hlast ht, Regs.endInterval_interval hw hi, if_pos hlt]
    · rw [hlast ht, Regs.endInterval_interval hw hi, if_neg (by omega)]
  · intro hnone
    have hbusy : c.regs.busy = false := c.regs.busy_eq_false.2 (c.regs.interval_eq_none_iff.1 hnone)
    cases hs : c.ports.start
    · simpa [Regs.next, hrst, hbusy, hs] using hnone
    · simp [Regs.next, hrst, hbusy, hs, Regs.interval]

/-! ### What an operation leaves unchanged (R16, R27, R93) -/

theorem Channel.commandTick_ports (f : Channel → Channel) (hf : ∀ c, (f c).ports = c.ports) {c c' : Channel}
    (h : c.commandTick f = .next c') : c'.ports = c.ports := by
  rcases commandTick_eq_next.1 h with ⟨-, rfl⟩ | ⟨-, -, -, rfl⟩ | ⟨-, -, rfl⟩
  · exact c.clear_ports
  · exact c.advance_ports
  · exact hf c

theorem Channel.microOp_ports {sel : Bool} (arm : Channel → Channel) (harm : ∀ c, (arm c).ports = c.ports)
    {c c' : Channel} (h : c.microOp sel arm = .next c') : c'.ports = c.ports := by
  obtain ⟨-, -, -, rfl⟩ := microOp_eq_next.1 h
  split
  · exact c.count_ports
  · exact harm c

theorem Channel.emit_ports {c c' : Channel} {a d : Byte} (h : c.emit a d = .next c') : c'.ports = c.ports :=
  Channel.commandTick_ports (·.accept a d) (fun c => c.accept_ports a d) h

theorem Channel.nop_ports {c c' : Channel} (h : c.nop = .next c') : c'.ports = c.ports :=
  Channel.commandTick_ports Channel.addRest (fun _ => rfl) h

/-- An operation that always answers next with an update that leaves the ports alone. -/
theorem Channel.ports_of_next {f : Channel → Channel} (hf : ∀ c, (f c).ports = c.ports) (c c' : Channel)
    (h : (.next (f c) : Result Channel) = .next c') : c'.ports = c.ports := by
  cases h
  exact hf c

/-- Every operation acts on its own channel, and on that channel leaves the input ports alone. -/
theorem exec_eq_onChannel (i : Instr) :
    ∃ f : Channel → Result Channel,
      (∀ s, exec i s = onChannel i.pin s f) ∧ ∀ c c', f c = .next c' → c'.ports = c.ports := by
  cases i with
  | emit k a d => exact ⟨_, fun _ => rfl, fun _ _ => Channel.emit_ports⟩
  | nop k a d => exact ⟨_, fun _ => rfl, fun _ _ => Channel.nop_ports⟩
  | reset k => exact ⟨_, fun _ => rfl, Channel.ports_of_next Channel.clear_ports⟩
  | pack k a d => exact ⟨_, fun _ => rfl, Channel.ports_of_next fun c => c.evalPacker_ports a d⟩
  | lead k => exact ⟨_, fun _ => rfl, Channel.ports_of_next Channel.addLead_ports⟩
  | bit0 k => exact ⟨_, fun _ => rfl, Channel.ports_of_next fun c => c.addBit_ports false⟩
  | bit1 k => exact ⟨_, fun _ => rfl, Channel.ports_of_next fun c => c.addBit_ports true⟩
  | stop k => exact ⟨_, fun _ => rfl, Channel.ports_of_next Channel.addStop_ports⟩
  | rest k => exact ⟨_, fun _ => rfl, Channel.ports_of_next fun _ => rfl⟩
  | uIdle k x =>
    refine ⟨_, fun _ => rfl, fun c c' h => ?_⟩
    split_ifs at h with hsel hstart
    · exact Channel.emit_ports h
    · exact Channel.nop_ports h
  | uLeadMark k x => exact ⟨_, fun _ => rfl, fun _ _ => Channel.microOp_ports Channel.endLeadMark fun _ => rfl⟩
  | uLeadSpace k x => exact ⟨_, fun _ => rfl, fun _ _ => Channel.microOp_ports Channel.endLeadSpace fun _ => rfl⟩
  | uBitMark k b => exact ⟨_, fun _ => rfl, fun _ _ => Channel.microOp_ports (Channel.endBitMark · b) fun _ => rfl⟩
  | uBitSpace k x => exact ⟨_, fun _ => rfl, fun _ _ => Channel.microOp_ports Channel.endBitSpace fun _ => rfl⟩
  | uStopMark k x => exact ⟨_, fun _ => rfl, fun _ _ => Channel.microOp_ports Channel.endStopMark fun _ => rfl⟩

/-- Settles O52: an operation writes one channel of the list, by an update that keeps the ports. -/
theorem operationsTouchOneChannel : Obligations.OperationsTouchOneChannel := by
  intro i s t h
  obtain ⟨f, hexec, hports⟩ := exec_eq_onChannel i
  obtain ⟨c, c', hc, hf, rfl⟩ := onChannel_eq_next.1 (hexec s ▸ h)
  obtain ⟨hlt, -⟩ := List.getElem?_eq_some_iff.1 hc
  refine ⟨rfl, rfl, by simp, fun j hj => by simp [Ne.symm hj], fun d d' hd hd' => ?_⟩
  cases hc.symm.trans hd
  have hd' : c' = d' := by simpa [hlt] using hd'
  exact hd' ▸ hports c c' hf

/-! ### Registers without a meaning (R30, log entry 6) -/

theorem Channel.commandTick_of_not_wf {c : Channel} (hw : c.regs.wf = false) (hrst : c.ports.rst = false)
    (f : Channel → Channel) : c.commandTick f = .refused .unreachableState := by
  simp [Channel.commandTick, hrst, hw]

theorem Channel.tick_of_not_wf {c : Channel} (hw : c.regs.wf = false) (hrst : c.ports.rst = false) :
    c.tick = .refused .unreachableState := by
  simp [Channel.tick, hrst, hw]

/-- The ticks of the channels from `k` on stop at the first that is without a meaning and not in reset. -/
theorem tickChannels_of_not_wf {n k j : Nat} {s : State} {c : Channel} (hk : k ≤ j) (hj : j < k + n)
    (hc : s.channels[j]? = some c) (hw : c.regs.wf = false) (hrst : c.ports.rst = false)
    (hbelow : ∀ (i : Nat) (e : Channel), k ≤ i → i < j → s.channels[i]? = some e → e.regs.wf = true) :
    tickChannels n k s = .refused .unreachableState := by
  induction n generalizing k s with
  | zero => omega
  | succ n ih =>
    simp only [tickChannels]
    rcases Nat.eq_or_lt_of_le hk with rfl | hkj
    · rw [tickChannel_of_some hc, Channel.tick_of_not_wf hw hrst]
      rfl
    · have hlt : k < s.channels.length := hkj.trans (List.getElem?_eq_some_iff.1 hc).1
      have he := List.getElem?_eq_getElem hlt
      obtain ⟨u, hu⟩ := (Channel.tick_next_iff _).2 (.inr (hbelow k _ (le_refl k) hkj he))
      rw [tickChannel_of_some he, hu]
      refine ih hkj (by omega) ?_ fun i e hi hij hie => hbelow i e (by omega) hij ?_
      · simpa [Nat.ne_of_lt hkj] using hc
      · simpa [show k ≠ i by omega] using hie

/-- Settles O57: the command level and the tick look at the registers before anything else but `rst`. -/
theorem unreachableRegistersAreRefused : Obligations.UnreachableRegistersAreRefused := by
  intro s k c a d hc hw hrst
  have hcommand : ∀ f : Channel → Channel,
      onChannel k s (fun c => c.commandTick f) = .refused .unreachableState := fun f => by
    simp [onChannel_of_some hc, Channel.commandTick_of_not_wf hw hrst]
  refine ⟨hcommand _, hcommand _, fun haddr hbelow => ?_⟩
  have hlt : k < s.channels.length := (List.getElem?_eq_some_iff.1 hc).1
  have hticks : tickChannels s.channels.length 0 s = .refused .unreachableState :=
    tickChannels_of_not_wf (Nat.zero_le k) (by omega) hc hw hrst fun i e _ hik hie => hbelow i e hik hie
  simp [step, tickSystem, haddr, hticks]

end Sys2Proof.Machine

/-! PROOFS. Encoding (`30_encoding.md`): what each format's decoder reads from a word, word for word the inverse of the
encoder; the operation that a decoded word runs; the ports that a program drives; and the obligations that follow. -/

namespace Sys2Proof

/-! ### The fields of a CMD word (R43) -/

theorem cmdWord_start (start : Bool) (a d : Byte) : (cmdWord start a d).getLsbD 16 = start := by
  rw [cmdWord_getLsbD]
  rfl

@[simp] theorem cmdWord_address (start : Bool) (a d : Byte) : (cmdWord start a d).extractLsb' 8 8 = a := by
  rw [cmdWord, BitVec.extractLsb'_append_eq_of_le (by decide), BitVec.extractLsb'_append_eq_right]

@[simp] theorem cmdWord_command (start : Bool) (a d : Byte) : (cmdWord start a d).extractLsb' 0 8 = d := by
  rw [cmdWord, BitVec.extractLsb'_append_eq_right]

/-- A CMD word is its three fields, and nothing else. -/
theorem cmdWord_of_fields (w : BitVec 17) : cmdWord (w.getLsbD 16) (w.extractLsb' 8 8) (w.extractLsb' 0 8) = w := by
  refine BitVec.eq_of_getLsbD_eq fun i hi => ?_
  rw [cmdWord_getLsbD]
  split_ifs with h8 h16
  · simp [h8]
  · simp [show i - 8 < 8 by omega, show 8 + (i - 8) = i by omega]
  · simp [show i = 16 by omega]

/-! ### The fields of a FRAME word (R42, R57, R61) -/

@[simp] theorem frameAddr_packFrame (a d : Byte) : frameAddr (packFrame a d) = a := by
  rw [frameAddr, packFrame, BitVec.extractLsb'_append_eq_of_le (by decide),
    BitVec.extractLsb'_append_eq_of_le (by decide), BitVec.extractLsb'_append_eq_left]

@[simp] theorem frameNaddr_packFrame (a d : Byte) : frameNaddr (packFrame a d) = not8 a := by
  rw [frameNaddr, packFrame, BitVec.extractLsb'_append_eq_of_le (by decide),
    BitVec.extractLsb'_append_eq_of_le (by decide), BitVec.extractLsb'_append_eq_right]

@[simp] theorem frameCmd_packFrame (a d : Byte) : frameCmd (packFrame a d) = d := by
  rw [frameCmd, packFrame, BitVec.extractLsb'_append_eq_of_le (by decide), BitVec.extractLsb'_append_eq_right]

@[simp] theorem frameNcmd_packFrame (a d : Byte) : frameNcmd (packFrame a d) = not8 d := by
  rw [frameNcmd, packFrame, BitVec.extractLsb'_append_eq_right]

/-- A FRAME word is its four fields in order. -/
theorem append_frame_fields (f : Frame) : frameAddr f ++ frameNaddr f ++ frameCmd f ++ frameNcmd f = f := by
  unfold frameAddr frameNaddr frameCmd frameNcmd
  rw [BitVec.extractLsb'_append_extractLsb'_eq_extractLsb' (show 24 = 16 + 8 from rfl),
    BitVec.extractLsb'_append_extractLsb'_eq_extractLsb' (show 16 = 8 + 8 from rfl),
    BitVec.extractLsb'_append_extractLsb'_eq_extractLsb' (show 8 = 0 + 8 from rfl)]
  exact BitVec.extractLsb'_eq_self

/-- The xor condition of R58 says that one byte is the guard byte of the other (R47). -/
theorem xor_eq_ff_iff (x y : Byte) : x ^^^ y = 0xFF#8 ↔ x = not8 y := by
  have hguard : not8 y ^^^ y = 0xFF#8 := by
    rw [not8, ← BitVec.xor_allOnes, BitVec.xor_comm y, BitVec.xor_assoc, BitVec.xor_self, BitVec.xor_zero]
    rfl
  rw [← hguard, BitVec.xor_left_inj]

theorem isPackedFrame_iff_guards (f : Frame) :
    isPackedFrame f = true ↔ frameNaddr f = not8 (frameAddr f) ∧ frameNcmd f = not8 (frameCmd f) := by
  simp [isPackedFrame, xor_eq_ff_iff]

@[simp] theorem isPackedFrame_packFrame (a d : Byte) : isPackedFrame (packFrame a d) = true := by
  simp [isPackedFrame_iff_guards]

/-- A word whose guard bytes are the complements is packed from its two operand fields (R61). -/
theorem packFrame_of_isPackedFrame {f : Frame} (h : isPackedFrame f = true) :
    packFrame (frameAddr f) (frameCmd f) = f := by
  obtain ⟨hnaddr, hncmd⟩ := (isPackedFrame_iff_guards f).1 h
  rw [packFrame, ← hnaddr, ← hncmd, append_frame_fields]

theorem isPackedFrame_iff (f : Frame) : isPackedFrame f = true ↔ ∃ a d, f = packFrame a d := by
  refine ⟨fun h => ⟨_, _, (packFrame_of_isPackedFrame h).symm⟩, ?_⟩
  rintro ⟨a, d, rfl⟩
  exact isPackedFrame_packFrame a d

/-! ### The fields of a UOP word (R46) -/

/-- A UOP word is its field `PHASE` and its bit `SHREG[31]`. -/
theorem uopWord_of_phase {w : BitVec 4} {n : Nat} (h : (w.extractLsb' 1 3).toNat = n) :
    uopWord (BitVec.ofNat 3 n) (w.getLsbD 0) = w := by
  subst h
  revert w
  decide

theorem toNat_uop_phase (w : BitVec 4) : (w.extractLsb' 1 3).toNat = w.toNat / 2 := by
  revert w
  decide

/-- The micro-operation of a phase, at channel `k` (section 6 of `30_encoding.md`). -/
def Machine.Phase.microOp (k : Nat) (x : Bool) : Machine.Phase → Instr
  | .idle => .uIdle k x
  | .leadMark => .uLeadMark k x
  | .leadSpace => .uLeadSpace k x
  | .bitMark => .uBitMark k x
  | .bitSpace => .uBitSpace k x
  | .stopMark => .uStopMark k x

/-- The UOP word of a phase's code stands for the phase's micro-operation. -/
theorem decodeUop_code (k : Nat) (p : Machine.Phase) (x : Bool) :
    decodeUop k (uopWord p.code x) = .ok (p.microOp k x) := by
  cases p <;> cases x <;> rfl

/-! ### Decoding the encoded word -/

theorem decodeCmd_cmdWord (k : Nat) (start : Bool) (a d : Byte) :
    decodeCmd k (cmdWord start a d) = if start then .emit k a d else .nop k a d := by
  rw [decodeCmd, cmdWord_start, cmdWord_address, cmdWord_command]

theorem decodeFrame_packFrame (k : Nat) (a d : Byte) : decodeFrame k (packFrame a d) = .ok (.pack k a d) := by
  simp [decodeFrame]

/-- Settles O12: format by format, the decoder reads back the fields that the encoder has put together. -/
theorem decodeOfEncodeIsTheOperation : Obligations.DecodeOfEncodeIsTheOperation := by
  intro i
  cases i with
  | emit k a d => exact congrArg Except.ok (decodeCmd_cmdWord k true a d)
  | nop k a d => exact congrArg Except.ok (decodeCmd_cmdWord k false a d)
  | reset k => rfl
  | pack k a d => exact decodeFrame_packFrame k a d
  | lead k => rfl
  | bit0 k => rfl
  | bit1 k => rfl
  | stop k => rfl
  | rest k => rfl
  | uIdle k x => exact decodeUop_code k .idle x
  | uLeadMark k x => exact decodeUop_code k .leadMark x
  | uLeadSpace k x => exact decodeUop_code k .leadSpace x
  | uBitMark k x => exact decodeUop_code k .bitMark x
  | uBitSpace k x => exact decodeUop_code k .bitSpace x
  | uStopMark k x => exact decodeUop_code k .stopMark x

/-- Settles O17: each word is the encoded word of its operation. -/
theorem writtenOutWordsDecodeRight : Obligations.WrittenOutWordsDecodeRight :=
  have h := decodeOfEncodeIsTheOperation
  ⟨h (.emit 0 0x01#8 0x40#8), h (.nop 0 0#8 0#8), h (.reset 0), h (.pack 0 0x01#8 0x40#8),
    h (.uIdle 0 false), h (.uLeadMark 0 true), h (.uLeadSpace 0 false), h (.uBitMark 0 false), h (.uBitMark 0 true),
    h (.uBitSpace 0 false), h (.uStopMark 0 false)⟩

/-! ### The word of a decoded operation -/

theorem encode_of_decodeCmd {k : Nat} {w : BitVec 17} {i : Instr} (h : decodeCmd k w = i) : encode i = .cmd w := by
  subst h
  have hw := cmdWord_of_fields w
  unfold decodeCmd
  cases hs : w.getLsbD 16 <;> rw [hs] at hw <;> exact congrArg Code.cmd hw

theorem encode_of_decodePortRst {k : Nat} {w : BitVec 1} {i : Instr} (h : decodePortRst k w = .ok i) :
    encode i = .portRst w := by
  unfold decodePortRst at h
  split at h
  · next hbit =>
    cases h
    refine congrArg Code.portRst ?_
    revert w
    decide
  · cases h

theorem encode_of_decodeFrame {k : Nat} {f : BitVec 32} {i : Instr} (h : decodeFrame k f = .ok i) :
    encode i = .frame f := by
  unfold decodeFrame at h
  split at h
  · next hpacked =>
    cases h
    exact congrArg Code.frame (packFrame_of_isPackedFrame hpacked)
  · cases h

theorem encode_of_decodeUop {k : Nat} {w : BitVec 4} {i : Instr} (h : decodeUop k w = .ok i) :
    encode i = .uop w := by
  unfold decodeUop at h
  split at h
  case h_7 => cases h
  all_goals
    next hphase =>
      cases h
      exact congrArg Code.uop (uopWord_of_phase hphase)

/-- In every format but SYM, a word that stands for an operation is that operation's encoded word. -/
theorem encode_of_decode {k : Nat} {w : Code} {i : Instr} (h : decode k w = .ok i)
    (hsym : ∀ p bits, w ≠ .sym p bits) : encode i = w := by
  cases w with
  | cmd w => exact encode_of_decodeCmd (Except.ok.inj h)
  | portRst w => exact encode_of_decodePortRst h
  | frame f => exact encode_of_decodeFrame h
  | sym p bits => exact absurd rfl (hsym p bits)
  | uop w => exact encode_of_decodeUop h

/-- Settles O13: both words are the encoded word of the operation. -/
theorem everyWordBitIsKept : Obligations.EveryWordBitIsKept := by
  intro k w w' i hw hw' hsym hsym'
  rw [← encode_of_decode hw hsym, encode_of_decode hw' hsym']

/-! ### Rejected words (R50, R51; log entry 17) -/

theorem decodeFrame_eq_error_iff (k : Nat) (f : BitVec 32) :
    decodeFrame k f = .error .brokenGuard ↔ ∀ a d : Byte, f ≠ packFrame a d := by
  have hnot : (∀ a d : Byte, f ≠ packFrame a d) ↔ ¬ isPackedFrame f = true := by simp [isPackedFrame_iff]
  rw [hnot, decodeFrame]
  split <;> simp [*]

/-- A UOP word is rejected exactly where its field `PHASE` is none of the six codes. -/
theorem decodeUop_eq_error_iff (k : Nat) (w : BitVec 4) :
    decodeUop k w = .error .unreachablePhase ↔ 6 ≤ (w.extractLsb' 1 3).toNat := by
  unfold decodeUop
  split
  case h_7 =>
    simp only [imp_false] at *
    exact iff_of_true trivial (by omega)
  all_goals simp [*]

/-- Settles O16: a frame is rejected where it is not packed, a UOP word where its `PHASE` is 6 or 7. -/
theorem rejectedWordsAreTheUnreachableOnes : Obligations.RejectedWordsAreTheUnreachableOnes := by
  refine ⟨decodeFrame_eq_error_iff, fun k w => ?_, fun k w => ⟨decodeCmd k w, rfl⟩⟩
  rw [decode, decodeUop_eq_error_iff, toNat_uop_phase]
  omega

/-! ### Symbols by position (R44) -/

theorem decodeSym_data {k p : Nat} (h1 : 1 ≤ p) (h32 : p ≤ 32) (b : Bool) :
    decodeSym k p [b] = .ok (if b then .bit1 k else .bit0 k) := by
  cases b <;> simp [decodeSym, Nat.ne_of_gt h1, h32]

theorem decodeSym_data_of_nil {k p : Nat} (h1 : 1 ≤ p) (h32 : p ≤ 32) : decodeSym k p [] = .error .symbolBits := by
  simp [decodeSym, Nat.ne_of_gt h1, h32]

theorem decodeSym_rest {k p : Nat} (h : 34 ≤ p) : decodeSym k p [] = .ok (.rest k) := by
  simp [decodeSym, show p ≠ 0 by omega, show ¬ p ≤ 32 by omega, show p ≠ 33 by omega]

/-- `LEAD`, `STOP` and `REST` carry no bit. -/
theorem decodeSym_of_bit {k p : Nat} (h : p = 0 ∨ 33 ≤ p) (b : Bool) : decodeSym k p [b] = .error .symbolBits := by
  rcases h with rfl | h
  · rfl
  · simp [decodeSym, show p ≠ 0 by omega, show ¬ p ≤ 32 by omega]

/-- Settles O15: the positions 0 and 33 are read off the decoder, and the others fall in its ranges. -/
theorem symbolsAreSelectedByPosition : Obligations.SymbolsAreSelectedByPosition := fun _ _ b =>
  ⟨rfl, fun h1 h32 => decodeSym_data h1 h32 b, rfl, decodeSym_rest, decodeSym_data_of_nil,
    fun h => decodeSym_of_bit h b⟩

end Sys2Proof

namespace Sys2Proof.Machine

/-! ### The symbols of a word (R44, R70) -/

theorem execAll_append (is js : List Instr) (s : State) :
    execAll (is ++ js) s = andThen (execAll is s) (execAll js) := by
  induction is generalizing s with
  | nil => rfl
  | cons i is ih =>
    simp only [List.cons_append, execAll]
    cases exec i s with
    | next t => exact ih t
    | fault e => cases e
    | refused e => rfl

@[simp] theorem State.setChannel_setChannel (s : State) (k : Nat) (c c' : Channel) :
    (s.setChannel k c).setChannel k c' = s.setChannel k c' := by
  simp [State.setChannel]

theorem State.setChannel_getElem? {s : State} {k : Nat} {c : Channel} (h : s.channels[k]? = some c) (c' : Channel) :
    (s.setChannel k c').channels[k]? = some c' := by
  obtain ⟨hlt, -⟩ := List.getElem?_eq_some_iff.1 h
  simp [hlt]

@[simp] theorem Channel.contribute_contribute (c : Channel) (xs ys : List Interval) :
    (c.contribute xs).contribute ys = c.contribute (xs ++ ys) := by
  simp [Channel.contribute]

/-- A data symbol joins the schedule (R66, R67). -/
theorem exec_dataSymbol {s : State} {k : Nat} {c : Channel} (h : s.channels[k]? = some c) (b : Bool) :
    exec (if b then .bit1 k else .bit0 k) s = .next (s.setChannel k (c.contribute (bitIntervals b))) := by
  cases b <;> exact onChannel_of_some h _

/-- The data symbols of a list of bits join the schedule one after another. -/
theorem execAll_dataSymbols {s : State} {k : Nat} {c : Channel} (h : s.channels[k]? = some c) (bits : List Bool) :
    execAll (bits.map fun b => if b then .bit1 k else .bit0 k) s =
      .next (s.setChannel k (c.contribute (bits.flatMap bitIntervals))) := by
  induction bits generalizing s c with
  | nil => simp [execAll, State.setChannel_self h]
  | cons b bits ih =>
    simp only [List.map_cons, execAll, exec_dataSymbol h, andThen_next, ih (State.setChannel_getElem? h _),
      State.setChannel_setChannel, Channel.contribute_contribute, List.flatMap_cons]

theorem length_symbolStream (k : Nat) (f : Frame) : (symbolStream k f).length = 34 := by
  simp [symbolStream]

/-- The stream of a word adds the word's schedule to the record, whatever the record holds. -/
theorem execAll_symbolStream {s : State} {k : Nat} {c : Channel} (h : s.channels[k]? = some c) (f : Frame) :
    execAll (symbolStream k f) s = .next (s.setChannel k (c.contribute (sched f))) := by
  have hlead : exec (.lead k) s = .next (s.setChannel k c.addLead) := onChannel_of_some h _
  have hbits := execAll_dataSymbols (State.setChannel_getElem? h c.addLead) (bitsDown f 32)
  have hstop : ∀ d : Channel, execAll [.stop k] (s.setChannel k d) = .next (s.setChannel k d.addStop) := fun d => by
    have hd : exec (.stop k) (s.setChannel k d) = .next ((s.setChannel k d).setChannel k d.addStop) :=
      onChannel_of_some (State.setChannel_getElem? h d) _
    rw [execAll, hd, State.setChannel_setChannel]
    rfl
  rw [symbolStream, List.cons_append, execAll, hlead, andThen_next, execAll_append, hbits, andThen_next,
    State.setChannel_setChannel, hstop]
  simp only [Channel.addLead, Channel.addStop, Channel.contribute_contribute, sched]

/-- Settles O26: an empty record becomes the schedule itself. -/
theorem symbolStreamBuildsTheSchedule : Obligations.SymbolStreamBuildsTheSchedule := by
  intro s k c f h hempty
  refine ⟨?_, length_symbolStream k f⟩
  rw [execAll_symbolStream h, Channel.contribute, hempty, List.nil_append]

/-! ### The ports that a program drives (R53; log entry 10) -/

/-- The line that gives the operands is the program's first command for the tick and channel. -/
theorem operandLine_of_first_command {before after : List Line} {l : Line} {t k : Nat} (ht : l.tick = t)
    (hk : l.chan = k) (hstart : l.ports.start = true)
    (hfirst : ∀ m ∈ before, m.tick ≠ t ∨ m.chan ≠ k ∨ m.ports.start = false) :
    operandLine (linesAt (before ++ l :: after) t k) = some l := by
  have hfind : (linesAt (before ++ l :: after) t k).find? (fun l => l.ports.start) = some l := by
    rw [linesAt, List.find?_filter, List.find?_eq_some_iff_append]
    refine ⟨by simp [ht, hk, hstart], before, after, rfl, fun m hm => ?_⟩
    rcases hfirst m hm with h | h | h <;> simp [h]
  simp [operandLine, hfind]

/-- Settles O18: a step drives the ports of the next tick from the program's lines for it. -/
theorem programDrivesThePorts : Obligations.ProgramDrivesThePorts := by
  intro s t k c h hc
  obtain ⟨-, htick, hprog, -, -⟩ := step_eq_next.1 h
  obtain ⟨_, u, -, -, rfl⟩ := exists_tick_of_step h hc
  rw [htick]
  have hrst := portsAt_rst_iff (program := s.program) (t := s.tick + 1) (k := k)
  have hstart := portsAt_start_iff (program := s.program) (t := s.tick + 1) (k := k)
  refine ⟨rfl, hprog, hrst, hstart, fun hl => hrst.2 ⟨_, hl, rfl, rfl, rfl⟩, ?_, ?_, fun hnone => ⟨?_, ?_⟩⟩
  · rintro e rfl hl
    exact hstart.2 ⟨_, hl, rfl, rfl, rfl⟩
  · intro before l after hsplit hlt hlk hls hfirst
    rw [hsplit]
    exact portsOf_operands (operandLine_of_first_command hlt hlk hls hfirst)
  · rw [← Bool.not_eq_true, hstart]
    rintro ⟨l, hl, hlt, hlk, -⟩
    exact (hnone l hl).elim (· hlt) (· hlk)
  · rw [← Bool.not_eq_true, hrst]
    rintro ⟨l, hl, hlt, hlk, -⟩
    exact (hnone l hl).elim (· hlt) (· hlk)

/-! ### The request layer's `selectInput` (R54, context) -/

theorem selectorValid_iff (selector : Nat) : selectorValid selector = true ↔ 1 ≤ selector ∧ selector ≤ 4 := by
  simp [selectorValid]

/-- The table of R54, numbered from 1. -/
theorem cmdTab_succ (n : Nat) : cmdTab (n + 1) = [0x40#8, 0x60#8, 0x10#8, 0x50#8, 0xB0#8][n]? := by
  match n with
  | 0 | 1 | 2 | 3 | 4 => rfl
  | n + 5 => rfl

theorem cmdTab_eq_none_iff (input : Nat) : cmdTab input = none ↔ ¬ (1 ≤ input ∧ input ≤ 5) := by
  cases input with
  | zero => simp [cmdTab]
  | succ n =>
    simp [cmdTab_succ]

/-- Settles O19: one call where both arguments are valid, and none where one of them is not. -/
theorem selectInputExpandsToOneCall : Obligations.SelectInputExpandsToOneCall := by
  intro selector input
  refine ⟨fun h1 h4 hi1 hi5 => ?_, fun hinvalid => ?_⟩
  · have hsel : selectorValid selector = true := (selectorValid_iff selector).2 ⟨h1, h4⟩
    obtain ⟨command, hcommand⟩ := Option.ne_none_iff_exists'.1 fun hnone =>
      (cmdTab_eq_none_iff input).1 hnone ⟨hi1, hi5⟩
    refine ⟨command, ?_, by simp [selectInput, hsel, hcommand]⟩
    rw [← cmdTab_succ, Nat.sub_add_cancel hi1, hcommand]
  · by_cases hsel : selectorValid selector = true
    · obtain ⟨h1, h4⟩ := (selectorValid_iff selector).1 hsel
      have hnone : cmdTab input = none := (cmdTab_eq_none_iff input).2 fun hi => hinvalid ⟨h1, h4, hi⟩
      simp [selectInput, hnone]
    · simp [selectInput, hsel]

/-! ### Micro-operations that a channel does not select (log entry 7) -/

theorem Channel.microOp_of_not_selected {c : Channel} {sel : Bool} (h : c.ports.rst = true ∨ sel = false)
    (arm : Channel → Channel) : c.microOp sel arm = .refused .notSelected := by
  rcases h with h | h <;> simp [Channel.microOp, h]

/-- On an existing channel, an operation that the channel refuses is refused. -/
theorem onChannel_refused {k : Nat} {s : State} {c : Channel} {f : Channel → Result Channel} {e : Refusal}
    (hc : s.channels[k]? = some c) (h : f c = .refused e) : onChannel k s f = .refused e := by
  rw [onChannel_of_some hc, h]
  rfl

/-- Settles O56: each micro-operation's selection test fails. -/
theorem unselectedMicroOpsAreRefused : Obligations.UnselectedMicroOpsAreRefused := by
  intro s k c x hc
  have hphase : ∀ (p : Phase) (arm : Channel → Channel), c.ports.rst = true ∨ c.regs.phase ≠ p →
      onChannel k s (fun c => c.microOp (c.regs.phase == p) arm) = .refused .notSelected := fun p arm h =>
    onChannel_refused hc (Channel.microOp_of_not_selected (h.imp_right beq_false_of_ne) arm)
  refine ⟨fun h => onChannel_refused hc ?_, hphase .leadMark _, hphase .leadSpace _,
    fun h => onChannel_refused hc
      (Channel.microOp_of_not_selected (h.imp_right fun h => Bool.and_eq_false_iff.2 ?_) _),
    hphase .bitSpace _, hphase .stopMark _⟩
  · rw [← c.regs.busy_iff] at h
    rcases h with h | h <;> simp [h]
  · exact h.imp beq_false_of_ne beq_false_of_ne

/-! ### The operation that a step runs (R46, R73) -/

/-- A channel's tick is the operation that its select word decodes to. -/
theorem tickChannel_of_decode {s : State} {k : Nat} {c : Channel} {i : Instr} (hc : s.channels[k]? = some c)
    (hi : decode k c.selectWord = .ok i) : tickChannel k s = exec i s := by
  simp [tickChannel, State.fetch, hc, hi]

/-- Settles O58: the ticks of one channel are the one operation, and in every system a channel's tick is its own. -/
theorem stepRunsTheDecodedOperation : Obligations.StepRunsTheDecodedOperation := by
  refine ⟨fun s c i hs haddr hi => ?_, fun s t k c i h hc hi => ?_⟩
  · have hticks : tickChannels s.channels.length 0 s = andThen (exec i s) .next := by
      rw [hs, ← tickChannel_of_decode (c := c) (by rw [hs]; rfl) hi]
      rfl
    rw [step, tickSystem, haddr, hticks]
    cases exec i s <;> rfl
  · obtain ⟨-, -, -, -, hstep⟩ := step_eq_next.1 h
    obtain ⟨c', hc', ht⟩ := hstep k c hc
    refine ⟨s.setChannel k c', c', ?_, State.setChannel_getElem? hc c', ht⟩
    rw [← tickChannel_of_decode hc hi, tickChannel_of_some hc, hc']
    rfl

/-- With `start = 1` a channel's tick is `EMIT` of the operands on its port, idle or not (R74, R96). -/
theorem Channel.tick_of_start {c : Channel} (h : c.ports.start = true) :
    c.tick = c.emit c.ports.address c.ports.command := by
  simp [Channel.tick, Channel.emit, Channel.commandTick, h]

/-- With `start = 0` a channel's tick is `NOP`, idle or not (R74, R88). -/
theorem Channel.tick_of_not_start {c : Channel} (h : c.ports.start = false) : c.tick = c.nop := by
  simp [Channel.tick, Channel.nop, Channel.commandTick, h]

/-- The operation of the CMD word on a channel's port has the effect of the channel's tick. -/
theorem exec_of_decode_cmdCode {s : State} {k : Nat} {c : Channel} {i : Instr} (hc : s.channels[k]? = some c)
    (hi : decode k c.cmdCode = .ok i) : exec i s = tickChannel k s := by
  have hi := Except.ok.inj hi
  rw [decodeCmd_cmdWord] at hi
  subst hi
  rw [tickChannel_of_some hc]
  cases hs : c.ports.start
  · rw [Channel.tick_of_not_start hs]
    exact onChannel_of_some hc Channel.nop
  · rw [Channel.tick_of_start hs]
    exact onChannel_of_some hc (Channel.emit · c.ports.address c.ports.command)

/-- Settles O59: both operations have the effect of the channel's tick. -/
theorem presentedCommandIsTheSelectedOperation : Obligations.PresentedCommandIsTheSelectedOperation := by
  intro s k c i j hc _ hi hj
  rw [exec_of_decode_cmdCode hc hi, tickChannel_of_decode hc hj]

end Sys2Proof.Machine

/-! PROOFS. The Frame packer (`40_frame_packer.md`): the frame as a formula and as four fields, the ones and zeroes that
every packed frame holds, what `PACK` writes, and the obligations that follow. -/

namespace Sys2Proof

/-! ### The frame (R57, R58, R61) -/

/-- Settles O20: the concatenation is the definition, and four bytes put together are their shifts and ORs. -/
theorem packIsTheFrameFormula : Obligations.PackIsTheFrameFormula := by
  intro a d
  have happend : packFrame a d = a ++ (~~~a) ++ d ++ (~~~d) := rfl
  refine ⟨happend, ?_⟩
  calc packFrame a d = (a ++ (~~~a) ++ d ++ (~~~d)).setWidth 32 := by rw [happend, BitVec.setWidth_eq]
    _ = _ := BitVec.setWidth_append_append_append_eq_shiftLeft_setWidth_or

theorem not8_eq_sub (x : Byte) : not8 x = 0xFF#8 - x :=
  (BitVec.allOnes_sub_eq_not x).symm

/-- Settles O21: the fields of a FRAME word, read off the concatenation; a guard byte is the complement of its byte. -/
theorem packedFieldsAreComplements : Obligations.PackedFieldsAreComplements := by
  intro a d
  obtain ⟨hnaddr, hncmd⟩ := (isPackedFrame_iff_guards _).1 (isPackedFrame_packFrame a d)
  exact ⟨frameAddr_packFrame a d, (frameNaddr_packFrame a d).trans (not8_eq_sub a), frameCmd_packFrame a d,
    (frameNcmd_packFrame a d).trans (not8_eq_sub d), (xor_eq_ff_iff _ _).2 hnaddr, (xor_eq_ff_iff _ _).2 hncmd⟩

/-- Settles O23: the operand fields invert `PACK`, and the words with complementary guard bytes are its image. -/
theorem packIsInvertedByTwoFields : Obligations.PackIsInvertedByTwoFields := by
  refine ⟨fun a d a' d' h => ⟨?_, ?_⟩, fun f => ⟨?_, ?_⟩⟩
  · simpa using congrArg frameAddr h
  · simpa using congrArg frameCmd h
  · rw [← isPackedFrame_iff, isPackedFrame, Bool.and_eq_true, beq_iff_eq, beq_iff_eq]
    rfl
  · rintro a d rfl
    exact ⟨frameAddr_packFrame a d, frameCmd_packFrame a d⟩

end Sys2Proof

namespace Sys2Proof.Machine

/-! ### Ones and zeroes (R60) -/

theorem byteBits_not8 (x : Byte) : byteBits (not8 x) = (byteBits x).map not := by
  simp [byteBits, not8]

/-- A byte and its guard byte have eight ones and eight zeroes together. -/
theorem count_byteBits_guarded (x : Byte) (b : Bool) : (byteBits x ++ byteBits (not8 x)).count b = 8 := by
  have hcomplement : ((byteBits x).map not).count b = (byteBits x).count (!b) := by
    rw [← List.count_map_of_injective (byteBits x) not Bool.involutive_not.injective, Bool.not_not]
  rw [List.count_append, byteBits_not8, hcomplement, Nat.add_comm, List.count_not_add_count]
  rfl

theorem duration_append (xs ys : List Interval) : duration (xs ++ ys) = duration xs + duration ys := by
  simp [duration]

/-- How long a schedule lasts, by the zeroes and ones of its word (R71 (e)). -/
theorem duration_sched (f : Frame) :
    duration (sched f) =
      9024 + 4512 + 33 * 564 + 564 * (bitsDown f 32).count false + 1692 * (bitsDown f 32).count true := by
  have hlead : duration leadIntervals = 13536 := rfl
  have hstop : duration stopIntervals = 564 := rfl
  rw [sched, duration_append, duration_append, duration_flatMap_bitIntervals, hlead, hstop, bitsDown_length]
  omega

/-- The data symbols of a word's stream are its bits. -/
theorem count_symbolStream (k : Nat) (f : Frame) (b : Bool) :
    (symbolStream k f).count (if b then .bit1 k else .bit0 k) = (bitsDown f 32).count b := by
  have hinj : Function.Injective fun b : Bool => if b then Instr.bit1 k else Instr.bit0 k :=
    Bool.injective_iff.2 (by simp)
  rw [← List.count_map_of_injective _ _ hinj, symbolStream]
  cases b <;> simp

/-- Settles O22: each half of the frame is a byte and its guard byte. -/
theorem packedFramesHaveSixteenOnes : Obligations.PackedFramesHaveSixteenOnes := by
  intro k a d f
  have hbits : bitsDown f 32 = (byteBits a ++ byteBits (not8 a)) ++ (byteBits d ++ byteBits (not8 d)) :=
    bitsDown_packFrame a d
  have hcount (b : Bool) : (bitsDown f 32).count b = 16 := by
    rw [hbits, List.count_append, count_byteBits_guarded, count_byteBits_guarded]
  have htake : (bitsDown f 32).take 16 = byteBits a ++ byteBits (not8 a) := by rw [hbits]; rfl
  have hdrop : (bitsDown f 32).drop 16 = byteBits d ++ byteBits (not8 d) := by rw [hbits]; rfl
  rw [htake, hdrop, duration_sched, hcount, hcount]
  exact ⟨rfl, rfl, count_byteBits_guarded a _, count_byteBits_guarded a _, count_byteBits_guarded d _,
    count_byteBits_guarded d _, (count_symbolStream k f true).trans (hcount true),
    (count_symbolStream k f false).trans (hcount false), rfl⟩

/-! ### What `PACK` and the symbols write (R57, R59, R86) -/

/-- `PACK` completes on an existing channel as the packer's update of that channel (R57). -/
theorem exec_pack {s : State} {k : Nat} {c : Channel} (hc : s.channels[k]? = some c) (a d : Byte) :
    exec (.pack k a d) s = .next (s.setChannel k (c.evalPacker a d)) :=
  onChannel_of_some hc _

/-- Settles O24: the packer's update puts the four bytes on the bus. -/
theorem packWritesTheBusAlone : Obligations.PackWritesTheBusAlone :=
  fun _ _ _ a d hc => exec_pack hc a d

/-- An update of channel `k` that keeps its registers keeps the registers of every channel. -/
theorem onChannel_keeps_regs {k j : Nat} {s t : State} {c : Channel} {f : Channel → Channel}
    (hf : ∀ c, (f c).regs = c.regs) (h : onChannel k s (fun c => .next (f c)) = .next t)
    (hc : s.channels[j]? = some c) : ∃ c', t.channels[j]? = some c' ∧ c'.regs = c.regs := by
  obtain ⟨e, _, he, hnext, rfl⟩ := onChannel_eq_next.1 h
  cases hnext
  by_cases hkj : k = j
  · subst hkj
    cases he.symm.trans hc
    exact ⟨f c, State.setChannel_getElem? hc (f c), hf c⟩
  · exact ⟨c, by simpa [hkj] using hc, rfl⟩

/-- Settles O53: each of the six operations is an update of its channel that keeps the registers. -/
theorem packAndSymbolsKeepTheRegisters : Obligations.PackAndSymbolsKeepTheRegisters := by
  intro k a d i s t hi h j c hc
  simp only [List.mem_cons, List.not_mem_nil, or_false] at hi
  obtain rfl | rfl | rfl | rfl | rfl | rfl := hi
  · exact onChannel_keeps_regs (fun c => c.evalPacker_regs a d) h hc
  · exact onChannel_keeps_regs Channel.addLead_regs h hc
  · exact onChannel_keeps_regs (fun c => c.addBit_regs false) h hc
  · exact onChannel_keeps_regs (fun c => c.addBit_regs true) h hc
  · exact onChannel_keeps_regs Channel.addStop_regs h hc
  · exact onChannel_keeps_regs (fun c => c.contribute_regs []) h hc

end Sys2Proof.Machine

/-! PROOFS. The Pulse serializer (`41_pulse_serializer.md`): the schedule of a word interval by interval, its waveform and
its length; the tick steps that play it; the micro-operations one by one; and the obligations that follow. -/

namespace Sys2Proof.Machine

/-! ### The intervals of a schedule (R70) -/

theorem sched_length (f : Frame) : (sched f).length = 67 := by
  rw [sched, List.length_append, List.length_append, flatMap_bitIntervals_length, bitsDown_length]
  rfl

theorem sched_leadMark (f : Frame) : (sched f)[0]? = some ⟨.low, 9024⟩ := rfl

theorem sched_leadSpace (f : Frame) : (sched f)[1]? = some ⟨.high, 4512⟩ := rfl

/-- After the two intervals of `LEAD` come the 64 intervals of the data symbols. -/
theorem sched_dataInterval (f : Frame) {i : Nat} (h : i < 64) :
    (sched f)[2 + i]? = ((bitsDown f 32).flatMap bitIntervals)[i]? := by
  have hlen : ((bitsDown f 32).flatMap bitIntervals).length = 64 := by
    rw [flatMap_bitIntervals_length, bitsDown_length]
  have hlead : leadIntervals.length = 2 := rfl
  rw [sched, List.append_assoc, List.getElem?_append_right (by omega), List.getElem?_append_left (by omega), hlead,
    Nat.add_sub_cancel_left]

theorem sched_bitMark (f : Frame) {j : Nat} (h : j ≤ 31) : (sched f)[2 + 2 * j]? = some ⟨.low, 564⟩ := by
  rw [sched_dataInterval f (by omega), (flatMap_bitIntervals_getElem? _ j).1, bitsDown_getElem? f (by omega)]
  rfl

theorem sched_bitSpace (f : Frame) {j : Nat} (h : j ≤ 31) :
    (sched f)[3 + 2 * j]? = some ⟨.high, if f.getLsbD (31 - j) then 1692 else 564⟩ := by
  rw [show 3 + 2 * j = 2 + (2 * j + 1) by omega, sched_dataInterval f (by omega),
    (flatMap_bitIntervals_getElem? _ j).2, bitsDown_getElem? f (by omega), Option.map_some, spaceOf_eq]

theorem sched_stopMark (f : Frame) : (sched f)[66]? = some ⟨.low, 564⟩ := by
  have hlen : (leadIntervals ++ (bitsDown f 32).flatMap bitIntervals).length = 66 := by
    rw [List.length_append, flatMap_bitIntervals_length, bitsDown_length]
    rfl
  rw [sched, List.getElem?_append_right (by omega), hlen]
  rfl

/-- Settles O27: the lead-in, the marks and spaces of the data symbols, and the stop mark. -/
theorem scheduleIntervalByInterval : Obligations.ScheduleIntervalByInterval := fun f =>
  ⟨sched_length f, sched_leadMark f, sched_leadSpace f, fun _ hj => ⟨sched_bitMark f hj, sched_bitSpace f hj⟩,
    sched_stopMark f⟩

/-! ### A transmission plays its schedule (R80) -/

/-- In tick `j` of `SCHED(f)` the registers are those of a transmission of `f`, and stand where the schedule says: its
interval, its level and the ticks that are left; past its end, idle. -/
def Regs.plays (r : Regs) (f : Frame) (j : Nat) : Prop :=
  r.reachableWith f ∧ intervalAt (sched f) j = r.interval.map fun i => (i, r.out, r.timer.toNat)

theorem Regs.loaded_plays (f : Frame) : (Regs.loaded f).plays f 0 :=
  ⟨Regs.loaded_reachableWith f, rfl⟩

theorem Regs.endInterval_leadMark {r : Regs} (h : r.phase = .leadMark) :
    r.endInterval = ⟨.leadSpace, r.shreg, r.bitcnt, 4512#14⟩ := by
  simp only [Regs.endInterval, h]

theorem Regs.endInterval_leadSpace {r : Regs} (h : r.phase = .leadSpace) :
    r.endInterval = ⟨.bitMark, r.shreg, r.bitcnt, 564#14⟩ := by
  simp only [Regs.endInterval, h]

theorem Regs.endInterval_bitMark {r : Regs} (h : r.phase = .bitMark) :
    r.endInterval = ⟨.bitSpace, r.shreg, r.bitcnt, if r.dataBit then 1692#14 else 564#14⟩ := by
  simp only [Regs.endInterval, h]

theorem Regs.endInterval_bitSpace {r : Regs} (h : r.phase = .bitSpace) :
    r.endInterval =
      ⟨if r.bitcnt = 1#6 then .stopMark else .bitMark, r.shreg <<< 1, r.bitcnt - 1#6, 564#14⟩ := by
  simp only [Regs.endInterval, h]

theorem Regs.endInterval_stopMark {r : Regs} (h : r.phase = .stopMark) :
    r.endInterval = ⟨.idle, r.shreg, r.bitcnt, 0#14⟩ := by
  simp only [Regs.endInterval, h]

/-- In flight and without reset a channel advances, whatever its other ports hold (R82). -/
theorem Regs.next_of_busy {r : Regs} {p : Ports} (hrst : p.rst = false) (hbusy : r.busy = true) :
    r.next p = r.advance := by
  simp [Regs.next, hrst, hbusy]

/-- The last tick of interval `i` starts interval `i + 1` of the schedule, at its level and with its duration. -/
theorem Regs.endInterval_starts_next {r : Regs} {f : Frame} {i : Nat} (h : r.reachableWith f)
    (hi : r.interval = some i) :
    (sched f)[i + 1]? = if i < 66 then some ⟨r.endInterval.out, r.endInterval.timer.toNat⟩ else none := by
  unfold Regs.interval at hi
  cases hp : r.phase with
  | idle => simp [hp] at hi
  | leadMark =>
    obtain rfl : 0 = i := by simpa [hp] using hi
    rw [Regs.endInterval_leadMark hp]
    rfl
  | leadSpace =>
    obtain rfl : 1 = i := by simpa [hp] using hi
    rw [Regs.endInterval_leadSpace hp]
    exact sched_bitMark f (Nat.zero_le 31)
  | bitMark =>
    obtain rfl : 2 + 2 * (32 - r.bitcnt.toNat) = i := by simpa [hp] using hi
    obtain ⟨h1, h32, hsh⟩ := Regs.shreg_of_reachableWith h (.inl hp)
    have hbit : r.dataBit = f.getLsbD (31 - (32 - r.bitcnt.toNat)) := by
      rw [Regs.dataBit, hsh, shiftLeft_top f h1 h32, show 31 - (32 - r.bitcnt.toNat) = r.bitcnt.toNat - 1 by omega]
    have hlt : 2 + 2 * (32 - r.bitcnt.toNat) < 66 := by omega
    rw [if_pos hlt, show 2 + 2 * (32 - r.bitcnt.toNat) + 1 = 3 + 2 * (32 - r.bitcnt.toNat) by omega,
      sched_bitSpace f (by omega), ← hbit, Regs.endInterval_bitMark hp]
    cases r.dataBit <;> rfl
  | bitSpace =>
    obtain rfl : 3 + 2 * (32 - r.bitcnt.toNat) = i := by simpa [hp] using hi
    obtain ⟨h1, h32, -⟩ := Regs.shreg_of_reachableWith h (.inr hp)
    have hlt : 3 + 2 * (32 - r.bitcnt.toNat) < 66 := by omega
    rw [if_pos hlt, Regs.endInterval_bitSpace hp]
    by_cases hlast : r.bitcnt = 1#6
    · simp [hlast, sched_stopMark, Regs.out]
    · have h2 := two_le_of_ne_one h1 hlast
      rw [show 3 + 2 * (32 - r.bitcnt.toNat) + 1 = 2 + 2 * (33 - r.bitcnt.toNat) by omega,
        sched_bitMark f (by omega)]
      simp [hlast, Regs.out]
  | stopMark =>
    obtain rfl : 66 = i := by simpa [hp] using hi
    exact List.getElem?_eq_none (by rw [sched_length])

theorem Regs.plays.busy {r : Regs} {f : Frame} {j : Nat} (h : r.plays f j) (hj : j < duration (sched f)) :
    r.busy = true := by
  rw [← intervalAt_isSome, h.2, Option.isSome_map] at hj
  refine r.busy_iff.2 fun hp => ?_
  simp [r.interval_eq_none_iff.2 hp] at hj

/-- Past the end of the schedule the registers are idle. -/
theorem Regs.plays.idle {r : Regs} {f : Frame} (h : r.plays f (duration (sched f))) : r = Regs.idle := by
  have hend : ¬ (intervalAt (sched f) (duration (sched f))).isSome = true := by
    rw [intervalAt_isSome]
    exact lt_irrefl _
  rw [h.2, Option.isSome_map, Option.not_isSome_iff_eq_none, r.interval_eq_none_iff] at hend
  exact (Regs.reachableWith_idle hend).1 h.1

/-- A tick of the transmission is a tick of the schedule: the same interval with one tick less, or the next one. -/
theorem Regs.plays.advance {r : Regs} {f : Frame} {j : Nat} (h : r.plays f j) (hj : j < duration (sched f)) :
    r.advance.plays f (j + 1) := by
  obtain ⟨i, hi⟩ := Option.ne_none_iff_exists'.1 (mt r.interval_eq_none_iff.1 (r.busy_iff.1 (h.busy hj)))
  have hat : intervalAt (sched f) j = some (i, r.out, r.timer.toNat) := by rw [h.2, hi]; rfl
  obtain ⟨h1, -, hcount, hlast⟩ := intervalAt_succ (sched_duration_pos f) hat
  refine ⟨Regs.advance_reachableWith h.1, ?_⟩
  rcases Nat.eq_or_lt_of_le h1 with ht | ht
  · rw [Regs.advance_of_last (le_of_eq ht.symm), hlast ht.symm, Regs.endInterval_starts_next h.1 hi,
      Regs.endInterval_interval (r.wf_iff_exists_reachableWith.2 ⟨f, h.1⟩) hi]
    split <;> rfl
  · have hinterval : r.count.interval = some i := hi
    have hout : r.count.out = r.out := rfl
    rw [Regs.advance_of_counting ht, hcount ht, hinterval, hout,
      r.count_timer_toNat (by simpa [Regs.counting] using ht)]
    rfl

/-! ### Runs of a system whose channels have a meaning (R99) -/

theorem State.wf_of_getElem? {s : State} {k : Nat} {c : Channel} (h : s.wf = true) (hc : s.channels[k]? = some c) :
    c.regs.wf = true :=
  List.all_eq_true.1 h c (List.mem_of_getElem? hc)

/-- The ticks of channels with a meaning answer next. -/
theorem tickChannels_of_wf {n k : Nat} {s : State} (hk : k + n ≤ s.channels.length)
    (hw : ∀ (j : Nat) (c : Channel), k ≤ j → s.channels[j]? = some c → c.regs.wf = true) :
    ∃ t, tickChannels n k s = .next t := by
  induction n generalizing k s with
  | zero => exact ⟨s, rfl⟩
  | succ n ih =>
    have hc := List.getElem?_eq_getElem (show k < s.channels.length by omega)
    obtain ⟨u, hu⟩ := (Channel.tick_next_iff _).2 (.inr (hw k _ (le_refl k) hc))
    simp only [tickChannels, tickChannel_of_some hc, hu, andThen_next]
    refine ih (by simp; omega) fun j c hj hcj => hw j c (by omega) ?_
    simpa [show k ≠ j by omega] using hcj

/-- A system whose channels have a meaning steps, unless a line of the tick names a missing channel. -/
theorem exists_step_of_wf {s : State} (hw : s.wf = true) (haddr : s.addressesNoChannel = false) :
    ∃ t, step s = .next t := by
  obtain ⟨u, hu⟩ := tickChannels_of_wf (n := s.channels.length) (k := 0) (by omega)
    fun _ _ _ hc => State.wf_of_getElem? hw hc
  exact ⟨u.nextTick, by simp [step, tickSystem, haddr, hu]⟩

/-- `t` is reached from `s` in `j` ticks, with a meaning in every channel and the program's lines on the ports. -/
structure RunsTo (s : State) (j : Nat) (t : State) : Prop where
  run : steps j s = .next t
  wf : t.wf = true
  tick : t.tick = s.tick + j
  program : t.program = s.program
  length : t.channels.length = s.channels.length
  ports : ∀ (k : Nat) (c : Channel), 1 ≤ j → t.channels[k]? = some c → c.ports = portsAt s.program (s.tick + j) k

theorem RunsTo.refl {s : State} (hw : s.wf = true) : RunsTo s 0 s :=
  ⟨rfl, hw, rfl, rfl, rfl, fun _ _ h => absurd h (by decide)⟩

/-- A run goes on by a step. -/
theorem RunsTo.after_step {s t u : State} {j : Nat} (h : RunsTo s j t) (hu : step t = .next u) :
    RunsTo s (j + 1) u := by
  obtain ⟨-, htick, hprog, hlen, -⟩ := step_eq_next.1 hu
  refine ⟨by rw [steps_succ, h.run, andThen_next, hu], stepLeavesEveryChannelMeaningful t u hu,
    by rw [htick, h.tick, Nat.add_assoc], hprog.trans h.program, hlen.trans h.length, fun k c _ hc => ?_⟩
  obtain ⟨_, v, -, -, rfl⟩ := exists_tick_of_step hu hc
  rw [h.program, h.tick, Nat.add_assoc]

/-- Within `n` ticks whose lines all name channels, a run goes on. -/
theorem RunsTo.exists_step {s t : State} {j n : Nat} (h : RunsTo s j t) (hv : s.pinsValidWithin n = true)
    (hj : j < n) : ∃ u, step t = .next u :=
  exists_step_of_wf h.wf (addressesNoChannel_of_valid hv hj h.tick h.program h.length)

/-- Within `n` ticks without reset on channel `k`, its port `rst` is 0. -/
theorem RunsTo.rst_eq_false {s t : State} {j k n : Nat} {c : Channel} (h : RunsTo s j t)
    (hr : s.noResetWithin k n = true) (hj : j < n) (hc : t.channels[k]? = some c) : c.ports.rst = false := by
  rcases Nat.eq_zero_or_pos j with rfl | hpos
  · cases h.run
    simp only [State.noResetWithin, hc, Bool.and_eq_true] at hr
    simpa using hr.1
  · rw [h.ports k c hpos hc]
    exact portsAt_rst hr hpos hj

/-- One more tick of a run, seen from a channel without reset. -/
theorem RunsTo.channel_next {s t : State} {j k n : Nat} {c : Channel} (h : RunsTo s j t)
    (hv : s.pinsValidWithin n = true) (hr : s.noResetWithin k n = true) (hj : j < n)
    (hc : t.channels[k]? = some c) :
    ∃ u c', RunsTo s (j + 1) u ∧ u.channels[k]? = some c' ∧ c.ports.rst = false ∧
      c'.regs = c.regs.next c.ports := by
  obtain ⟨u, hu⟩ := h.exists_step hv hj
  obtain ⟨-, -, -, -, hstep⟩ := step_eq_next.1 hu
  obtain ⟨v, -, hc'⟩ := hstep k c hc
  exact ⟨u, _, h.after_step hu, hc', h.rst_eq_false hr hj hc, (regs_and_ports_of_step hu hc hc').1⟩

/-- A channel that holds the loaded registers of `f` after `m` ticks of a run plays `SCHED(f)` from there. -/
theorem RunsTo.plays_schedule {s t : State} {m k n : Nat} {c : Channel} {f : Frame} (h : RunsTo s m t)
    (hc : t.channels[k]? = some c) (hregs : c.regs = Regs.loaded f) (hn : m + duration (sched f) ≤ n)
    (hv : s.pinsValidWithin n = true) (hr : s.noResetWithin k n = true) {j : Nat} (hj : j ≤ duration (sched f)) :
    ∃ u c', RunsTo s (m + j) u ∧ u.channels[k]? = some c' ∧ c'.regs.plays f j := by
  induction j with
  | zero => exact ⟨t, c, h, hc, hregs ▸ Regs.loaded_plays f⟩
  | succ j ih =>
    obtain ⟨u, d, hu, hd, hplays⟩ := ih (by omega)
    obtain ⟨v, c', hv', hc', hrst, hnext⟩ := hu.channel_next hv hr (by omega) hd
    refine ⟨v, c', hv', hc', ?_⟩
    rw [hnext, Regs.next_of_busy hrst (hplays.busy (by omega))]
    exact hplays.advance (by omega)

/-- Settles O37: the run starts from the loaded registers. -/
theorem serializerPlaysEveryWord : Obligations.SerializerPlaysEveryWord := by
  intro s k c f hw hc hregs hr hv
  have hplay {j : Nat} (hj : j ≤ duration (sched f)) :=
    (RunsTo.refl hw).plays_schedule hc hregs (by omega) hv hr hj
  simp only [Nat.zero_add] at hplay
  refine ⟨fun j hj => ?_, ?_⟩
  · obtain ⟨t, c', ht, hc', hplays⟩ := hplay (le_of_lt hj)
    exact ⟨t, c', ht.run, hc', hplays.2⟩
  · obtain ⟨t, c', ht, hc', hplays⟩ := hplay (le_refl _)
    exact ⟨t, c', ht.run, hc', hplays.idle⟩

/-- Settles O36: the acceptance loads the frame, and the schedule plays from the next tick on. -/
theorem emitPlaysItsSchedule : Obligations.EmitPlaysItsSchedule := by
  intro s k c f hw hc hidle hstart hr hv
  obtain ⟨t, d, ht, hd, hrst, hnext⟩ := (RunsTo.refl hw).channel_next hv hr (by omega) hc
  have hloaded : d.regs = Regs.loaded f := by
    rw [hnext]
    simp [Regs.next, hrst, c.regs.busy_eq_false.2 hidle, hstart, f]
  have hplay {j : Nat} (hj : j ≤ duration (sched f)) :=
    ht.plays_schedule hd hloaded (by omega) hv hr hj
  refine ⟨fun j h1 hj => ?_, ?_⟩
  · obtain ⟨u, c', hu, hc', hplays⟩ := hplay (j := j - 1) (by omega)
    rw [show 0 + 1 + (j - 1) = j by omega] at hu
    exact ⟨u, c', hu.run, hc', hplays.busy (by omega), hplays.2⟩
  · obtain ⟨u, c', hu, hc', hplays⟩ := hplay (le_refl _)
    rw [Nat.zero_add, Nat.add_comm] at hu
    have hregs := hplays.idle
    exact ⟨u, c', hu.run, hc', hregs, by rw [hregs]; rfl⟩

/-! ### The levels of a schedule and the edges of its waveform (R71) -/

/-- Even-numbered intervals are marks, odd-numbered ones spaces. -/
theorem sched_level {f : Frame} {i : Nat} {iv : Interval} (h : (sched f)[i]? = some iv) :
    iv.level = if i % 2 = 0 then .low else .high := by
  obtain ⟨hi, -⟩ := List.getElem?_eq_some_iff.1 h
  rw [sched_length] at hi
  have hplace : i = 0 ∨ i = 1 ∨ (i = 2 + 2 * (i / 2 - 1) ∧ i / 2 - 1 ≤ 31) ∨
      (i = 3 + 2 * (i / 2 - 1) ∧ i / 2 - 1 ≤ 31) ∨ i = 66 := by omega
  generalize i / 2 - 1 = j at hplace
  rcases hplace with rfl | rfl | ⟨rfl, hj⟩ | ⟨rfl, hj⟩ | rfl
  · obtain rfl := Option.some.inj (h.symm.trans (sched_leadMark f))
    rfl
  · obtain rfl := Option.some.inj (h.symm.trans (sched_leadSpace f))
    rfl
  · obtain rfl := Option.some.inj (h.symm.trans (sched_bitMark f hj))
    exact (if_pos (by omega)).symm
  · obtain rfl := Option.some.inj (h.symm.trans (sched_bitSpace f hj))
    exact (if_neg (by omega)).symm
  · obtain rfl := Option.some.inj (h.symm.trans (sched_stopMark f))
    rfl

/-- No two adjacent intervals have one level. -/
theorem sched_isChain (f : Frame) : (sched f).IsChain fun a b => a.level ≠ b.level := by
  refine List.isChain_iff_getElem.2 fun i hi => ?_
  rw [sched_level (List.getElem?_eq_getElem (by omega)), sched_level (List.getElem?_eq_getElem hi)]
  rcases Nat.mod_two_eq_zero_or_one i with h | h
  · simp [h, show (i + 1) % 2 = 1 by omega]
  · simp [h, show (i + 1) % 2 = 0 by omega]

theorem playOut_append (xs ys : List Interval) : playOut (xs ++ ys) = playOut xs ++ playOut ys :=
  List.flatMap_append

/-- Ticks of one level before a waveform that does not begin with it encode as one interval. -/
theorem foldr_addTick_replicate {l : Level} {ivs : List Interval} (h : ∀ iv ∈ ivs.head?, l ≠ iv.level) (n : Nat) :
    (List.replicate (n + 1) l).foldr addTick ivs = ⟨l, n + 1⟩ :: ivs := by
  induction n with
  | zero =>
    cases ivs with
    | nil => rfl
    | cons iv ivs => simp [addTick, Ne.symm (h iv rfl)]
  | succ n ih => rw [List.replicate_succ, List.foldr_cons, ih, addTick, if_pos rfl]

/-- The run-length encoding gives back the intervals that are played out, where none is empty and no two adjacent ones
would merge. -/
theorem runLengths_playOut {ivs : List Interval} (hpos : ∀ iv ∈ ivs, 1 ≤ iv.duration)
    (hchain : ivs.IsChain fun a b => a.level ≠ b.level) : runLengths (playOut ivs) = ivs := by
  induction ivs with
  | nil => rfl
  | cons iv ivs ih =>
    obtain ⟨hhead, htail⟩ := List.isChain_cons.1 hchain
    have hrest : (playOut ivs).foldr addTick [] = ivs := ih (fun a ha => hpos a (by simp [ha])) htail
    obtain ⟨n, hn⟩ := Nat.exists_eq_add_of_le' (hpos iv (by simp))
    rw [playOut, List.flatMap_cons, runLengths, List.foldr_append, ← playOut, hrest, hn,
      foldr_addTick_replicate hhead, ← hn]

/-- Ticks that stay at one level are no edges. -/
theorem edges_replicate (l : Level) (n : Nat) (w : List Level) :
    fallingEdges (l :: (List.replicate n l ++ w)) = fallingEdges (l :: w) ∧
    risingEdges (l :: (List.replicate n l ++ w)) = risingEdges (l :: w) := by
  induction n with
  | zero => exact ⟨rfl, rfl⟩
  | succ n ih =>
    rw [← ih.1, ← ih.2]
    cases l <;> exact ⟨rfl, rfl⟩

/-- A mark and the space after it are one falling and one rising edge. -/
theorem edges_mark_space {d e : Nat} (hd : 1 ≤ d) (he : 1 ≤ e) (w : List Level) :
    fallingEdges (Level.high :: (playOut [⟨.low, d⟩, ⟨.high, e⟩] ++ w)) = fallingEdges (Level.high :: w) + 1 ∧
    risingEdges (Level.high :: (playOut [⟨.low, d⟩, ⟨.high, e⟩] ++ w)) = risingEdges (Level.high :: w) + 1 := by
  obtain ⟨m, rfl⟩ := Nat.exists_eq_add_of_le' hd
  obtain ⟨n, rfl⟩ := Nat.exists_eq_add_of_le' he
  have hplay : Level.high :: (playOut [⟨.low, m + 1⟩, ⟨.high, n + 1⟩] ++ w) =
      Level.high :: Level.low :: (List.replicate m Level.low ++ (Level.high :: (List.replicate n Level.high ++ w))) := by
    simp [playOut, List.replicate_succ]
  obtain ⟨hfall, hrise⟩ := edges_replicate .low m (Level.high :: (List.replicate n Level.high ++ w))
  obtain ⟨hfall', hrise'⟩ := edges_replicate .high n w
  rw [hplay]
  constructor
  · rw [fallingEdges, hfall, fallingEdges, hfall']
    simp
  · rw [risingEdges, hrise, risingEdges, hrise']
    simp

/-- Every data symbol is one falling and one rising edge. -/
theorem edges_dataSymbols (bits : List Bool) (w : List Level) :
    fallingEdges (Level.high :: (playOut (bits.flatMap bitIntervals) ++ w)) =
      fallingEdges (Level.high :: w) + bits.length ∧
    risingEdges (Level.high :: (playOut (bits.flatMap bitIntervals) ++ w)) =
      risingEdges (Level.high :: w) + bits.length := by
  induction bits with
  | nil => exact ⟨rfl, rfl⟩
  | cons b bits ih =>
    have hspace : 1 ≤ spaceOf b := by cases b <;> decide
    obtain ⟨hfall, hrise⟩ := edges_mark_space (d := dBitMark) (by decide) hspace
      (playOut (bits.flatMap bitIntervals) ++ w)
    rw [List.flatMap_cons, playOut_append, List.append_assoc, bitIntervals, hfall, hrise, ih.1, ih.2]
    exact ⟨rfl, rfl⟩

/-- Between rest levels, a waveform has an edge each way for `LEAD`, for every data symbol and for `STOP`. -/
theorem edges_sched (f : Frame) :
    fallingEdges (Level.high :: (playOut (sched f) ++ [Level.high])) = 34 ∧
    risingEdges (Level.high :: (playOut (sched f) ++ [Level.high])) = 34 := by
  have hstop : playOut stopIntervals ++ [Level.high] = playOut [⟨.low, dStopMark⟩, ⟨.high, 1⟩] :=
    (playOut_append stopIntervals [⟨.high, 1⟩]).symm
  have hsplit : playOut (sched f) ++ [Level.high] =
      playOut leadIntervals ++ (playOut ((bitsDown f 32).flatMap bitIntervals) ++
        (playOut [⟨.low, dStopMark⟩, ⟨.high, 1⟩] ++ [])) := by
    rw [sched, playOut_append, playOut_append, List.append_assoc, List.append_assoc, List.append_nil, hstop]
  obtain ⟨hfall₁, hrise₁⟩ := edges_mark_space (d := dLeadMark) (e := dLeadSpace) (by decide) (by decide)
    (playOut ((bitsDown f 32).flatMap bitIntervals) ++ (playOut [⟨.low, dStopMark⟩, ⟨.high, 1⟩] ++ []))
  obtain ⟨hfall₂, hrise₂⟩ := edges_dataSymbols (bitsDown f 32) (playOut [⟨.low, dStopMark⟩, ⟨.high, 1⟩] ++ [])
  obtain ⟨hfall₃, hrise₃⟩ := edges_mark_space (d := dStopMark) (by decide) (le_refl 1) []
  rw [hsplit, leadIntervals, hfall₁, hrise₁, hfall₂, hrise₂, hfall₃, hrise₃, bitsDown_length]
  exact ⟨rfl, rfl⟩

/-! ### Marks and durations (R71 (c), (e), R85) -/

theorem markDurations_append (xs ys : List Interval) :
    markDurations (xs ++ ys) = markDurations xs ++ markDurations ys := by
  simp [markDurations]

theorem markDurations_dataSymbols (bits : List Bool) :
    markDurations (bits.flatMap bitIntervals) = List.replicate bits.length 564 := by
  induction bits with
  | nil => rfl
  | cons b bits ih =>
    rw [List.flatMap_cons, markDurations_append, ih, List.length_cons, List.replicate_succ]
    rfl

theorem markDurations_sched (f : Frame) : markDurations (sched f) = 9024 :: List.replicate 33 564 := by
  rw [sched, markDurations_append, markDurations_append, markDurations_dataSymbols, bitsDown_length]
  rfl

theorem onesOf_add_count_false (f : Frame) : onesOf f + (bitsDown f 32).count false = 32 := by
  have h := List.count_not_add_count (bitsDown f 32) true
  rw [bitsDown_length] at h
  rw [onesOf, Nat.add_comm]
  exact h

theorem duration_sched_of_ones (f : Frame) : duration (sched f) = 50196 + 1128 * onesOf f := by
  have h := onesOf_add_count_false f
  rw [duration_sched, ← onesOf]
  omega

/-- Settles O28: the shape is read off the intervals, the waveform's edges are counted symbol by symbol. -/
theorem scheduleShape : Obligations.ScheduleShape := by
  intro f
  obtain ⟨hfall, hrise⟩ := edges_sched f
  have hones := onesOf_add_count_false f
  have hduration := duration_sched_of_ones f
  refine ⟨sched_length f, fun i iv => sched_level, hfall, hrise,
    runLengths_playOut (sched_duration_pos f) (sched_isChain f), ?_, ?_, ?_, fun j hj => ?_, by omega, hduration⟩
  · rw [markDurations_sched]
    rfl
  · rw [markDurations_sched]
    decide
  · rw [markDurations_sched]
    decide
  · rw [sched_bitSpace f hj]
    cases f.getLsbD (31 - j) <;> decide

/-- Settles O29: a word's duration follows from its number of ones. -/
theorem durationsOfWords : Obligations.DurationsOfWords := by
  refine ⟨?_, ?_, fun f => ?_, fun a d => ?_⟩
  · rw [duration_sched_of_ones]
    rfl
  · rw [duration_sched_of_ones]
    rfl
  · have hones := onesOf_add_count_false f
    rw [duration_sched_of_ones]
    omega
  · obtain ⟨-, -, -, -, -, -, -, -, h⟩ := packedFramesHaveSixteenOnes 0 a d
    exact h

/-! ### The symbols as operations (R65 to R69) -/

/-- Settles O25: each symbol is an update of its channel's record, and `REST` writes the channel back as it was. -/
theorem symbolsContributeTheirIntervals : Obligations.SymbolsContributeTheirIntervals := by
  intro s k c hc
  have hrest : exec (.rest k) s = .next (s.setChannel k c.addRest) := onChannel_of_some hc _
  rw [Channel.addRest_eq, State.setChannel_self hc] at hrest
  exact ⟨onChannel_of_some hc _, onChannel_of_some hc _, onChannel_of_some hc _, onChannel_of_some hc _, hrest⟩

/-! ### A micro-operation that the channel selects (R74 to R79) -/

/-- The operation that a channel selects has the effect of the channel's tick. -/
theorem exec_selectedOp {s : State} {k : Nat} {c : Channel} (hc : s.channels[k]? = some c) :
    exec (selectedOp k c) s = andThen c.tick fun c' => .next (s.setChannel k c') := by
  rw [← tickChannel_of_some hc, tickChannel_of_decode hc (decode_selectWord k c)]

/-- A channel in flight and without reset advances, whatever its other ports hold (R82). -/
theorem Channel.tick_of_busy {c : Channel} (hw : c.regs.wf = true) (hbusy : c.regs.busy = true)
    (hrst : c.ports.rst = false) : c.tick = .next c.advance :=
  Channel.tick_eq_next.2 (.inr (.inl ⟨hrst, hw, hbusy, rfl⟩))

/-- In flight, an operation that the channel selects completes: it counts, or ends the interval. -/
theorem exec_of_selected {s : State} {k : Nat} {c : Channel} {i : Instr} (hi : exec i s = exec (selectedOp k c) s)
    (hc : s.channels[k]? = some c) (hrst : c.ports.rst = false) (hw : c.regs.wf = true)
    (hp : c.regs.phase ≠ .idle) :
    ∃ t c', exec i s = .next t ∧ t.channels[k]? = some c' ∧
      (1 < c.regs.timer.toNat → c'.regs = { c.regs with timer := c.regs.timer - 1#14 }) ∧
      (c.regs.timer = 1#14 → c'.regs = c.regs.endInterval) := by
  refine ⟨s.setChannel k c.advance, c.advance, ?_, State.setChannel_getElem? hc _, fun ht => ?_, fun ht => ?_⟩
  · rw [hi, exec_selectedOp hc, Channel.tick_of_busy hw (c.regs.busy_iff.2 hp) hrst]
    rfl
  · rw [Channel.advance_regs, Regs.advance_of_counting ht]
    rfl
  · rw [Channel.advance_regs, Regs.advance_of_last (by simp [ht])]

/-- Settles O30: an idle channel's tick is the acceptance or rests. -/
theorem uIdleAcceptsOrRests : Obligations.UIdleAcceptsOrRests := by
  intro s k c x hc hrst hw hp
  have hidle : c.regs = Regs.idle := c.regs.eq_idle_of_wf hw hp
  have hsel : exec (.uIdle k x) s = exec (selectedOp k c) s := by
    simp only [selectedOp, hrst, hp]
    rfl
  rw [hsel, exec_selectedOp hc]
  refine ⟨c.regs.out_eq_high_iff.2 (.inl hp), ?_⟩
  cases hstart : c.ports.start
  · have htick : c.tick = .next c := Channel.tick_eq_next.2 (.inr (.inr (.inr ⟨hrst, hidle, hstart, rfl⟩)))
    refine ⟨s, ?_, by simp, fun _ => rfl⟩
    rw [htick, andThen_next, State.setChannel_self hc]
  · have htick : c.tick = .next (c.accept c.ports.address c.ports.command) :=
      Channel.tick_eq_next.2 (.inr (.inr (.inl ⟨hrst, hidle, hstart, rfl⟩)))
    rw [htick, andThen_next]
    exact ⟨_, rfl, fun _ => ⟨exec_emit_of_idle hc hrst hidle _ _, _, State.setChannel_getElem? hc _, rfl⟩, by simp⟩

/-- Settles O31: `U_LEAD_MARK` is the operation selected in `LEAD_MARK`. -/
theorem uLeadMarkCountsThenSpaces : Obligations.ULeadMarkCountsThenSpaces := by
  intro s k c x hc hrst hw hp
  obtain ⟨t, c', ht, hc', hcount, hlast⟩ :=
    exec_of_selected (i := .uLeadMark k x) (by simp only [selectedOp, hrst, hp]; rfl) hc hrst hw (by simp [hp])
  rw [Regs.endInterval_leadMark hp] at hlast
  exact ⟨c.regs.out_eq_low_iff.2 (.inl hp), t, c', ht, hc', hcount, hlast⟩

/-- Settles O32: `U_LEAD_SPACE` is the operation selected in `LEAD_SPACE`. -/
theorem uLeadSpaceCountsThenMarks : Obligations.ULeadSpaceCountsThenMarks := by
  intro s k c x hc hrst hw hp
  obtain ⟨t, c', ht, hc', hcount, hlast⟩ :=
    exec_of_selected (i := .uLeadSpace k x) (by simp only [selectedOp, hrst, hp]; rfl) hc hrst hw (by simp [hp])
  rw [Regs.endInterval_leadSpace hp] at hlast
  obtain ⟨hbits, -, -⟩ := (Regs.wf_leadSpace hp).1 hw
  exact ⟨c.regs.out_eq_high_iff.2 (.inr (.inl hp)), hbits, t, c', ht, hc', hcount, hlast⟩

/-- Settles O33: `U_BIT_MARK` with `b = SHREG[31]` is the operation selected in `BIT_MARK`. -/
theorem uBitMarkCountsThenChoosesTheSpace : Obligations.UBitMarkCountsThenChoosesTheSpace := by
  intro s k c b hc hrst hw hp hb
  have hbit : c.regs.dataBit = b := hb
  obtain ⟨t, c', ht, hc', hcount, hlast⟩ :=
    exec_of_selected (i := .uBitMark k b) (by simp only [selectedOp, hrst, hp, hbit]; rfl) hc hrst hw (by simp [hp])
  rw [Regs.endInterval_bitMark hp, hbit] at hlast
  refine ⟨c.regs.out_eq_low_iff.2 (.inr (.inl hp)), t, c', ht, hc', hcount, fun h1 hb => ?_, fun h1 hb => ?_⟩
  · simpa [hb] using hlast h1
  · simpa [hb] using hlast h1

/-- Settles O34: `U_BIT_SPACE` is the operation selected in `BIT_SPACE`, and registers with a meaning hold the last bit
alone where `BITCNT = 1`. -/
theorem uBitSpaceCountsThenShifts : Obligations.UBitSpaceCountsThenShifts := by
  intro s k c x hc hrst hw hp
  obtain ⟨t, c', ht, hc', hcount, hlast⟩ :=
    exec_of_selected (i := .uBitSpace k x) (by simp only [selectedOp, hrst, hp]; rfl) hc hrst hw (by simp [hp])
  rw [Regs.endInterval_bitSpace hp] at hlast
  refine ⟨c.regs.out_eq_high_iff.2 (.inr (.inr hp)), t, c', ht, hc', hcount, fun h1 hbits => ?_, fun h1 hbits => ?_⟩
  · obtain ⟨-, -, hshifted, -⟩ := (Regs.wf_bitSpace hp).1 hw
    have hempty : c.regs.shreg <<< 1 = 0#32 := by simpa [hbits] using hshifted
    rw [hlast h1, if_pos hbits]
    exact ⟨rfl, hempty, by rw [hbits]; rfl⟩
  · rw [hlast h1, if_neg hbits]

/-- Settles O35: `U_STOP_MARK` is the operation selected in `STOP_MARK`, where `SHREG` and `BITCNT` are already 0. -/
theorem uStopMarkCountsThenIdles : Obligations.UStopMarkCountsThenIdles := by
  intro s k c x hc hrst hw hp
  obtain ⟨t, c', ht, hc', hcount, hlast⟩ :=
    exec_of_selected (i := .uStopMark k x) (by simp only [selectedOp, hrst, hp]; rfl) hc hrst hw (by simp [hp])
  obtain ⟨hshreg, hbits, -, -⟩ := (Regs.wf_stopMark hp).1 hw
  rw [Regs.endInterval_stopMark hp, hshreg, hbits] at hlast
  refine ⟨c.regs.out_eq_low_iff.2 (.inr (.inr hp)), t, c', ht, hc', hcount, fun h1 => ?_⟩
  rw [hlast h1]
  exact ⟨rfl, rfl, rfl⟩

/-! ### What a micro-operation of a busy channel writes (log entries 12, 13) -/

/-- Where a micro-operation answers next, its channel has counted or run the end-of-interval arm. -/
theorem channel_of_microOp {s t : State} {k : Nat} {c c' : Channel} {sel : Channel → Bool} {arm : Channel → Channel}
    (h : onChannel k s (fun c => c.microOp (sel c) arm) = .next t) (hc : s.channels[k]? = some c)
    (hc' : t.channels[k]? = some c') : c' = if c.regs.counting then c.count else arm c := by
  obtain ⟨d, d', hd, hnext, rfl⟩ := onChannel_eq_next.1 h
  cases hd.symm.trans hc
  cases (State.setChannel_getElem? hc d').symm.trans hc'
  obtain ⟨-, -, -, hd'⟩ := microOp_eq_next.1 hnext
  exact hd'

/-- Where the tick is the last of its interval, the channel has run the end-of-interval arm. -/
theorem channel_of_microOp_last {s t : State} {k : Nat} {c c' : Channel} {sel : Channel → Bool}
    {arm : Channel → Channel} (h : onChannel k s (fun c => c.microOp (sel c) arm) = .next t)
    (hc : s.channels[k]? = some c) (hc' : t.channels[k]? = some c') (ht : c.regs.timer = 1#14) : c' = arm c := by
  have hlast : c.regs.counting = false := by simp [Regs.counting, ht]
  simpa [hlast] using channel_of_microOp h hc hc'

/-- A tick of a micro-operation writes the bus in no case, before the last tick `TIMER` alone, and on the last tick what
its end-of-interval arm writes. -/
theorem microOp_frame {s t : State} {k : Nat} {c c' : Channel} {sel : Channel → Bool} {arm : Channel → Channel}
    (hbus : (arm c).bus = c.bus) (h : onChannel k s (fun c => c.microOp (sel c) arm) = .next t)
    (hc : s.channels[k]? = some c) (hc' : t.channels[k]? = some c') :
    c'.bus = c.bus ∧
    (1 < c.regs.timer.toNat →
      c'.regs.phase = c.regs.phase ∧ c'.regs.shreg = c.regs.shreg ∧ c'.regs.bitcnt = c.regs.bitcnt ∧
        c'.sched = c.sched) ∧
    ((arm c).regs.shreg = c.regs.shreg ∧ (arm c).regs.bitcnt = c.regs.bitcnt →
      c'.regs.shreg = c.regs.shreg ∧ c'.regs.bitcnt = c.regs.bitcnt) := by
  rw [channel_of_microOp h hc hc']
  by_cases hcount : c.regs.counting = true
  · rw [if_pos hcount]
    exact ⟨rfl, fun _ => ⟨rfl, rfl, rfl, rfl⟩, fun _ => ⟨rfl, rfl⟩⟩
  · rw [if_neg hcount]
    exact ⟨hbus, fun ht => absurd (decide_eq_true ht) hcount, id⟩

/-- Settles O54: the arms of the five micro-operations leave the bus alone, and only that of `U_BIT_SPACE` writes
`SHREG` and `BITCNT`. -/
theorem microOpsKeepWhatTheyDoNotWrite : Obligations.MicroOpsKeepWhatTheyDoNotWrite := by
  intro k x i s t c c' hi h hc hc'
  simp only [List.mem_cons, List.not_mem_nil, or_false] at hi
  obtain rfl | rfl | rfl | rfl | rfl := hi
  · obtain ⟨hbus, hcount, hkeep⟩ := microOp_frame (arm := Channel.endLeadMark) rfl h hc hc'
    exact ⟨hbus, hcount, fun _ => hkeep ⟨rfl, rfl⟩⟩
  · obtain ⟨hbus, hcount, hkeep⟩ := microOp_frame (arm := Channel.endLeadSpace) rfl h hc hc'
    exact ⟨hbus, hcount, fun _ => hkeep ⟨rfl, rfl⟩⟩
  · obtain ⟨hbus, hcount, hkeep⟩ := microOp_frame (sel := fun c => c.regs.phase == .bitMark && c.regs.dataBit == x)
      (arm := (Channel.endBitMark · x)) rfl h hc hc'
    exact ⟨hbus, hcount, fun _ => hkeep ⟨rfl, rfl⟩⟩
  · obtain ⟨hbus, hcount, -⟩ := microOp_frame (arm := Channel.endBitSpace) rfl h hc hc'
    exact ⟨hbus, hcount, fun hne => absurd rfl hne⟩
  · obtain ⟨hbus, hcount, hkeep⟩ := microOp_frame (arm := Channel.endStopMark) rfl h hc hc'
    exact ⟨hbus, hcount, fun _ => hkeep ⟨rfl, rfl⟩⟩

/-- Settles O55: on the last tick the record is the one that the end-of-interval arm leaves. -/
theorem completedSymbolsAreRecorded : Obligations.CompletedSymbolsAreRecorded := by
  intro k x i s t c c' h hc hc' ht
  refine ⟨?_, ?_, ?_, ?_, ?_⟩
  · rintro rfl
    rw [channel_of_microOp_last (arm := Channel.endLeadMark) h hc hc' ht]
    rfl
  · rintro rfl
    rw [channel_of_microOp_last (arm := Channel.endLeadSpace) h hc hc' ht]
    rfl
  · rintro rfl
    rw [channel_of_microOp_last (sel := fun c => c.regs.phase == .bitMark && c.regs.dataBit == x)
      (arm := (Channel.endBitMark · x)) h hc hc' ht]
    rfl
  · rintro rfl
    rw [channel_of_microOp_last (arm := Channel.endBitSpace) h hc hc' ht, Channel.endBitSpace_sched, bitIntervals,
      spaceOf_eq]
    rfl
  · rintro rfl
    rw [channel_of_microOp_last (arm := Channel.endStopMark) h hc hc' ht]
    rfl

/-! ### The step of a channel in flight (R73, R82, R84) -/

/-- Settles O60: the registers after a step are `Regs.next`, written out arm by arm. -/
theorem eachChannelStepsByItsPhase : Obligations.EachChannelStepsByItsPhase := by
  intro s t k c c' h hc hc'
  rw [(regs_and_ports_of_step h hc hc').1]
  by_cases hrst : c.ports.rst = true
  · simp [Regs.next, hrst, Regs.idle]
  · by_cases hp : c.regs.phase = .idle
    · rw [if_neg hrst, if_pos hp]
      simp [Regs.next, hrst, c.regs.busy_eq_false.2 hp, Regs.loaded]
    · rw [if_neg hrst, if_neg hp, Regs.next_of_busy (by simpa using hrst) (c.regs.busy_iff.2 hp)]
      by_cases ht : 1 < c.regs.timer.toNat
      · rw [if_pos ht, Regs.advance_of_counting ht, Regs.count]
      · rw [if_neg ht, Regs.advance_of_last (Nat.not_lt.1 ht), Regs.endInterval]
        rfl

theorem Channel.advance_withPorts (c : Channel) (p : Ports) :
    ({ c with ports := p } : Channel).advance = { c.advance with ports := p } := by
  unfold Channel.advance Channel.endInterval
  split
  · rfl
  · cases c.regs.phase <;> rfl

/-- Settles O38: with other ports the channel advances alike, and the ports of the next tick replace them. -/
theorem transmissionIgnoresItsPorts : Obligations.TransmissionIgnoresItsPorts := by
  intro s k c p hc hbusy hrst hprst t h
  have hw : c.regs.wf = true := (rst_or_wf_of_step h hc).resolve_left (by simp [hrst])
  obtain ⟨haddr, htick, hprog, hlen, hstep⟩ := step_eq_next.1 h
  refine step_eq_next.2 ⟨?_, htick, hprog, by simpa using hlen, fun j d hd => ?_⟩
  · simpa [State.addressesNoChannel] using haddr
  · by_cases hkj : k = j
    · subst hkj
      cases (State.setChannel_getElem? hc _).symm.trans hd
      obtain ⟨u, hu, ht⟩ := hstep k c hc
      rw [Channel.tick_of_busy hw hbusy hrst] at hu
      cases hu
      exact ⟨_, Channel.tick_of_busy hw hbusy hprst, by rw [ht, Channel.advance_withPorts c p]; rfl⟩
    · exact hstep j d (by simpa [hkj] using hd)

/-- Settles O39: `TIMER` counts from at least 2, and `BITCNT` from at least 1 in `BIT_SPACE`. -/
theorem countersNeverWrap : Obligations.CountersNeverWrap := by
  intro s t k c c' h hc hc' hrst hp
  have hw : c.regs.wf = true := (rst_or_wf_of_step h hc).resolve_left (by simp [hrst])
  rw [(regs_and_ports_of_step h hc hc').1, Regs.next_of_busy hrst (c.regs.busy_iff.2 hp)]
  refine ⟨fun ht => ?_, fun ht hspace => ?_, fun ht hspace => ?_, Regs.one_le_timer hw (c.regs.busy_iff.2 hp)⟩
  · rw [Regs.advance_of_counting ht, c.regs.count_timer_toNat (by simpa [Regs.counting] using ht)]
    exact ⟨by omega, rfl⟩
  · obtain ⟨h1, -⟩ := (Regs.wf_bitSpace hspace).1 hw
    rw [Regs.advance_of_last (le_of_eq ht), Regs.endInterval_bitSpace hspace, bitcnt_pred_toNat h1]
    omega
  · rw [Regs.advance_of_last (le_of_eq ht)]
    unfold Regs.endInterval
    cases hphase : c.regs.phase with
    | bitSpace => exact absurd hphase hspace
    | _ => rfl

end Sys2Proof.Machine

/-! PROOFS. The command level (`42_emit.md`): what `EMIT` and `NOP` do to a channel in one tick; the run of one accepted
command, tick by tick, and its waveform; the blocking call; and the obligations that follow. -/

namespace Sys2Proof.Machine

/-! ### `EMIT` and `NOP` in one tick (R87, R88, R93, R96) -/

/-- Settles O45: every operation acts on its channel alone, and the step looks for a missing channel first. -/
theorem missingChannelIsRefused : Obligations.MissingChannelIsRefused := by
  refine ⟨fun s i hpin => ?_, fun s l hl htick hchan => ?_⟩
  · obtain ⟨f, hexec, -⟩ := exec_eq_onChannel i
    rw [hexec, onChannel_of_none hpin]
  · have haddr : s.addressesNoChannel = true := List.any_eq_true.2 ⟨l, hl, by simp [htick, hchan]⟩
    rw [step, tickSystem, if_pos haddr]

/-- Settles O40: an idle channel with a meaning holds the one idle state, and `EMIT` there is its acceptance. -/
theorem emitLoadsAnIdleChannel : Obligations.EmitLoadsAnIdleChannel := by
  intro s k c a d hc hrst hw hp
  exact ⟨exec_emit_of_idle hc hrst (c.regs.eq_idle_of_wf hw hp) a d, c.regs.out_eq_high_iff.2 (.inl hp), rfl⟩

/-- On a channel in flight `EMIT` and `NOP` alike let the transmission advance (R88, R96). -/
theorem onChannel_commandTick_of_busy {s : State} {k : Nat} {c : Channel} (hc : s.channels[k]? = some c)
    (hrst : c.ports.rst = false) (hw : c.regs.wf = true) (hbusy : c.regs.busy = true) (whenIdle : Channel → Channel) :
    onChannel k s (fun c => c.commandTick whenIdle) = .next (s.setChannel k c.advance) :=
  onChannel_eq_next.2 ⟨c, _, hc, commandTick_eq_next.2 (.inr (.inl ⟨hrst, hw, hbusy, rfl⟩)), rfl⟩

/-- `NOP` on an idle channel without reset changes nothing (R88). -/
theorem exec_nop_of_idle {s : State} {k : Nat} {c : Channel} (hc : s.channels[k]? = some c)
    (hrst : c.ports.rst = false) (hidle : c.regs = Regs.idle) (x y : Byte) : exec (.nop k x y) s = .next s :=
  onChannel_eq_next.2 ⟨c, c, hc,
    commandTick_eq_next.2 (.inr (.inr ⟨hrst, hidle, c.addRest_eq.symm⟩)), (State.setChannel_self hc).symm⟩

/-- Without reset a channel's registers select the operation (R46, R73). -/
theorem decode_uop_of_not_rst {c : Channel} (hrst : c.ports.rst = false) (k : Nat) :
    decode k (.uop (uopWord c.regs.phase.code c.regs.dataBit)) = .ok (selectedOp k c) := by
  rw [← decode_selectWord, Channel.selectWord, hrst]
  rfl

/-- Settles O41: on an idle channel `NOP` writes the channel back as it was, on a busy one every command and
the selected micro-operation advance it. -/
theorem nopRestsOrLetsTheTransmissionAdvance : Obligations.NopRestsOrLetsTheTransmissionAdvance := by
  intro s k c x y x' y' a d hc hrst hw
  refine ⟨rfl, fun hp => ?_, fun hp => ?_⟩
  · exact ⟨exec_nop_of_idle hc hrst (c.regs.eq_idle_of_wf hw hp) x y, c.regs.out_eq_high_iff.2 (.inl hp)⟩
  · have hbusy : c.regs.busy = true := c.regs.busy_iff.2 hp
    have hnop : exec (.nop k x y) s = .next (s.setChannel k c.advance) :=
      onChannel_commandTick_of_busy hc hrst hw hbusy Channel.addRest
    have hemit : exec (.emit k a d) s = .next (s.setChannel k c.advance) :=
      onChannel_commandTick_of_busy hc hrst hw hbusy (·.accept a d)
    have hselected : exec (selectedOp k c) s = .next (s.setChannel k c.advance) := by
      rw [exec_selectedOp hc, Channel.tick_of_busy hw hbusy hrst, andThen_next]
    exact ⟨hnop.trans hemit.symm, _, _, decode_uop_of_not_rst hrst k, hselected, hnop⟩

/-- Settles O48: the step answers next whatever `start` holds, and a transmission ignores its ports. -/
theorem startWhileBusyIsIgnoredAndNoted : Obligations.StartWhileBusyIsIgnoredAndNoted := by
  intro s k c hw haddr hc hbusy hrst hstart
  have hbreach : (s.channels.any fun c => c.ports.start && c.regs.busy) = true :=
    List.any_eq_true.2 ⟨c, List.mem_of_getElem? hc, by simp [hstart, hbusy]⟩
  obtain ⟨t, ht⟩ := exists_step_of_wf hw haddr
  exact ⟨by simp [State.breach, haddr, hbreach], t, ht,
    transmissionIgnoresItsPorts s k c { c.ports with start := false } hc hbusy hrst hrst t ht⟩

/-! ### The schedule of a command (R89, R90) -/

theorem duration_emitSched (a d : Byte) : duration (emitSched a d) = 68244 := by
  obtain ⟨-, -, -, h⟩ := durationsOfWords
  exact h a d

theorem length_playOut (ivs : List Interval) : (playOut ivs).length = duration ivs := by
  simp [playOut, duration, List.length_flatMap]

/-- The level of tick `j` of a schedule that is played out is the level of the interval it falls in. -/
theorem playOut_getElem? (ivs : List Interval) (j : Nat) :
    (playOut ivs)[j]? = (intervalAt ivs j).map fun place => place.2.1 := by
  induction ivs generalizing j with
  | nil => rfl
  | cons iv ivs ih =>
    rw [playOut, List.flatMap_cons, ← playOut, intervalAt]
    by_cases hj : j < iv.duration
    · rw [if_pos hj, List.getElem?_append_left (by simpa using hj)]
      simp [hj]
    · rw [if_neg hj, List.getElem?_append_right (by simpa using hj), List.length_replicate, ih, Option.map_map]
      rfl

/-- The last tick of a schedule is one of the stop mark. -/
theorem getLast?_playOut_sched (f : Frame) : (playOut (sched f)).getLast? = some .low := by
  have hstop : playOut stopIntervals = List.replicate 564 .low := List.append_nil _
  rw [sched, playOut_append, hstop, List.getLast?_append, List.getLast?_replicate]
  rfl

/-! ### A channel that transmits a word -/

/-- In tick `j` of `SCHED(f)` the channel plays that tick, and its record holds the symbols that are complete (log entry
13): all of them once it is idle. -/
structure Channel.Transmits (c : Channel) (f : Frame) (j : Nat) : Prop where
  plays : c.regs.plays f j
  record : c.recordOf f
  complete : c.regs.phase = .idle → c.sched = Machine.sched f

/-- The input ports play no part in a transmission. -/
theorem Channel.Transmits.withPorts {c : Channel} {f : Frame} {j : Nat} (h : c.Transmits f j) (p : Ports) :
    ({ c with ports := p } : Channel).Transmits f j :=
  ⟨h.plays, h.record, h.complete⟩

theorem Channel.accept_transmits (c : Channel) (a d : Byte) : (c.accept a d).Transmits (packFrame a d) 0 :=
  ⟨Regs.loaded_plays _, rfl, fun h => nomatch h⟩

/-- The tick that ends a transmission ends its stop mark, whose symbol completes the record. -/
theorem Channel.advance_sched_of_idle {c : Channel} {f : Frame} (hrec : c.recordOf f) (hbusy : c.regs.busy = true)
    (hidle : c.advance.regs.phase = .idle) : c.advance.sched = Machine.sched f := by
  rcases Nat.lt_or_ge 1 c.regs.timer.toNat with ht | ht
  · rw [Channel.advance_of_counting ht] at hidle
    exact absurd hidle (c.regs.busy_iff.1 hbusy)
  · rw [Channel.advance_of_last ht] at hidle ⊢
    rw [Channel.endInterval_regs] at hidle
    cases hp : c.regs.phase with
    | idle => exact absurd hp (c.regs.busy_iff.1 hbusy)
    | leadMark => simp [Regs.endInterval_leadMark hp] at hidle
    | leadSpace => simp [Regs.endInterval_leadSpace hp] at hidle
    | bitMark => simp [Regs.endInterval_bitMark hp] at hidle
    | bitSpace =>
      rw [Regs.endInterval_bitSpace hp] at hidle
      simp only at hidle
      split at hidle <;> cases hidle
    | stopMark =>
      simp only [Channel.recordOf, hp] at hrec
      simp [Channel.endInterval, hp, hrec, Machine.sched]

/-- A tick of the transmission is a tick of its schedule. -/
theorem Channel.Transmits.advance {c : Channel} {f : Frame} {j : Nat} (h : c.Transmits f j)
    (hj : j < duration (Machine.sched f)) : c.advance.Transmits f (j + 1) :=
  ⟨c.advance_regs ▸ h.plays.advance hj, Channel.advance_recordOf h.plays.1 h.record,
    Channel.advance_sched_of_idle h.record (h.plays.busy hj)⟩

/-- The level of a channel that transmits is that of the schedule's tick. -/
theorem Channel.Transmits.out {c : Channel} {f : Frame} {j : Nat} (h : c.Transmits f j)
    (hj : j < duration (Machine.sched f)) : (playOut (Machine.sched f))[j]? = some c.regs.out := by
  have hsome := (intervalAt_isSome _ j).2 hj
  rw [h.plays.2, Option.isSome_map] at hsome
  obtain ⟨i, hi⟩ := Option.isSome_iff_exists.1 hsome
  rw [playOut_getElem?, h.plays.2, hi]
  rfl

/-! ### The run of one command (R90) -/

/-- The channel after one more tick of a run. -/
theorem RunsTo.after_tick {s t : State} {j k n : Nat} {c c' : Channel} (h : RunsTo s j t)
    (hv : s.pinsValidWithin n = true) (hj : j < n) (hc : t.channels[k]? = some c) (hc' : c.tick = .next c') :
    ∃ u, RunsTo s (j + 1) u ∧
      u.channels[k]? = some { c' with ports := portsAt s.program (s.tick + (j + 1)) k } := by
  obtain ⟨u, hu⟩ := h.exists_step hv hj
  obtain ⟨-, -, -, -, hstep⟩ := step_eq_next.1 hu
  obtain ⟨v, hv, hcu⟩ := hstep k c hc
  cases hc'.symm.trans hv
  rw [h.program, h.tick, Nat.add_assoc] at hcu
  exact ⟨u, h.after_step hu, hcu⟩

/-- The premises of a run of one `EMIT`: in a system whose channels have a meaning, channel `k` accepts the command on
its port, and for `n` ticks it is not reset and no line names a missing channel. -/
structure EmitRun (s : State) (k : Nat) (c : Channel) (n : Nat) : Prop where
  wf : s.wf = true
  channel : s.channels[k]? = some c
  idle : c.regs.phase = .idle
  start : c.ports.start = true
  noReset : s.noResetWithin k n = true
  pinsValid : s.pinsValidWithin n = true

/-- From the tick after the acceptance on, the channel transmits the frame of the command. -/
theorem EmitRun.transmits {s : State} {k n : Nat} {c : Channel} (h : EmitRun s k c n) {j : Nat}
    (hj : j ≤ duration (emitSched c.ports.address c.ports.command)) (hn : j < n) :
    ∃ t c', RunsTo s (j + 1) t ∧ t.channels[k]? = some c' ∧
      c'.Transmits (packFrame c.ports.address c.ports.command) j := by
  induction j with
  | zero =>
    have hrun := RunsTo.refl h.wf
    have htick : c.tick = .next (c.accept c.ports.address c.ports.command) :=
      Channel.tick_eq_next.2 (.inr (.inr (.inl ⟨hrun.rst_eq_false h.noReset hn h.channel,
        c.regs.eq_idle_of_wf (State.wf_of_getElem? h.wf h.channel) h.idle, h.start, rfl⟩)))
    obtain ⟨t, ht, hc'⟩ := hrun.after_tick h.pinsValid hn h.channel htick
    exact ⟨t, _, ht, hc', (c.accept_transmits _ _).withPorts _⟩
  | succ j ih =>
    obtain ⟨t, d, ht, hd, htransmits⟩ := ih (by omega) (by omega)
    have htick : d.tick = .next d.advance :=
      Channel.tick_of_busy (State.wf_of_getElem? ht.wf hd) (htransmits.plays.busy hj)
        (ht.rst_eq_false h.noReset hn hd)
    obtain ⟨u, hu, hc'⟩ := ht.after_tick h.pinsValid hn hd htick
    exact ⟨u, _, hu, hc', (htransmits.advance hj).withPorts _⟩

/-- The run of one command is busy in its ticks 1 to 68244. -/
theorem EmitRun.inFlight {s : State} {k n : Nat} {c : Channel} (h : EmitRun s k c n) {j : Nat} (h1 : 1 ≤ j)
    (hj : j ≤ 68244) (hn : j ≤ n) :
    ∃ t c', RunsTo s j t ∧ t.channels[k]? = some c' ∧ c'.regs.busy = true ∧
      (playOut (emitSched c.ports.address c.ports.command))[j - 1]? = some c'.regs.out := by
  have hlt : j - 1 < duration (emitSched c.ports.address c.ports.command) := by
    rw [duration_emitSched]
    omega
  obtain ⟨t, c', ht, hc', htransmits⟩ := h.transmits (le_of_lt hlt) (by omega)
  rw [Nat.sub_add_cancel h1] at ht
  exact ⟨t, c', ht, hc', htransmits.plays.busy hlt, htransmits.out hlt⟩

/-- The run of one command ends in its tick 68245, idle and with the whole schedule on record. -/
theorem EmitRun.ends {s : State} {k n : Nat} {c : Channel} (h : EmitRun s k c n) (hn : 68245 ≤ n) :
    ∃ t c', RunsTo s 68245 t ∧ t.channels[k]? = some c' ∧ c'.regs = Regs.idle ∧
      c'.sched = emitSched c.ports.address c.ports.command := by
  have hdur := duration_emitSched c.ports.address c.ports.command
  obtain ⟨t, c', ht, hc', htransmits⟩ := h.transmits (le_of_eq hdur.symm) hn
  have hidle : c'.regs = Regs.idle := Regs.plays.idle (by rw [← emitSched, hdur]; exact htransmits.plays)
  exact ⟨t, c', ht, hc', hidle, htransmits.complete (by rw [hidle]; rfl)⟩

/-- In each tick of the run after the acceptance, the channel is busy or the run has ended. -/
theorem EmitRun.busy_eq {s : State} {k n : Nat} {c : Channel} (h : EmitRun s k c n) {j : Nat} (h1 : 1 ≤ j)
    (hj : j ≤ 68245) (hn : j ≤ n) :
    ∃ t c', RunsTo s j t ∧ t.channels[k]? = some c' ∧ c'.regs.busy = decide (j ≤ 68244) := by
  by_cases hlast : j ≤ 68244
  · obtain ⟨t, c', ht, hc', hbusy, -⟩ := h.inFlight h1 hlast hn
    exact ⟨t, c', ht, hc', by rw [hbusy, decide_eq_true hlast]⟩
  · obtain rfl : j = 68245 := by omega
    obtain ⟨t, c', ht, hc', hidle, -⟩ := h.ends hn
    exact ⟨t, c', ht, hc', by rw [hidle]; rfl⟩

theorem State.busyOf_of_getElem? {s : State} {k : Nat} {c : Channel} (hc : s.channels[k]? = some c) :
    s.busyOf k = some c.regs.busy := by
  simp [State.busyOf, hc]

/-- Settles O42: the channel transmits for the duration of its schedule, which every packed frame has in common. -/
theorem everyEmitTakes68244Ticks : Obligations.EveryEmitTakes68244Ticks := by
  intro s k c hw hc hp hstart hr hv
  have h : EmitRun s k c 68245 := ⟨hw, hc, hp, hstart, hr, hv⟩
  refine ⟨fun j hj => ?_, ?_, sched_length _, duration_emitSched _ _, rfl⟩
  · rcases Nat.eq_zero_or_pos j with rfl | h1
    · exact ⟨s, rfl, by simp [State.busyOf_of_getElem? hc, c.regs.busy_eq_false.2 hp]⟩
    · obtain ⟨t, c', ht, hc', hbusy⟩ := h.busy_eq h1 hj hj
      exact ⟨t, ht.run, by simp [State.busyOf_of_getElem? hc', hbusy, Nat.succ_le_of_lt h1]⟩
  · obtain ⟨t, c', ht, hc', hidle, -⟩ := h.ends (le_refl _)
    exact ⟨t, c', ht.run, hc', hidle, by rw [hidle]; rfl, by rw [hidle]; rfl⟩

/-! ### The waveform of one command (R89, R94, R95) -/

/-- At the end of a run the waveform shows the level of the channel reached. -/
theorem RunsTo.waveform_eq {s t : State} {j k : Nat} {c : Channel} (h : RunsTo s j t)
    (hc : t.channels[k]? = some c) : waveform s k j = some c.regs.out := by
  rw [waveform_of_steps h.run, State.outOf, hc, Option.map_some]

theorem EmitRun.waveform_acceptance {s : State} {k n : Nat} {c : Channel} (h : EmitRun s k c n) :
    waveform s k 0 = some .high := by
  rw [(RunsTo.refl h.wf).waveform_eq h.channel, c.regs.out_eq_high_iff.2 (.inl h.idle)]

theorem EmitRun.waveform_inFlight {s : State} {k n : Nat} {c : Channel} (h : EmitRun s k c n) {j : Nat}
    (hj : j < 68244) (hn : j < n) :
    waveform s k (j + 1) = (playOut (emitSched c.ports.address c.ports.command))[j]? := by
  obtain ⟨t, c', ht, hc', -, hout⟩ := h.inFlight (Nat.succ_pos j) hj hn
  exact (ht.waveform_eq hc').trans hout.symm

theorem EmitRun.waveform_end {s : State} {k n : Nat} {c : Channel} (h : EmitRun s k c n) (hn : 68245 ≤ n) :
    waveform s k 68245 = some .high := by
  obtain ⟨t, c', ht, hc', hidle, -⟩ := h.ends hn
  rw [ht.waveform_eq hc', hidle]
  rfl

/-- Settles O43: the waveform is the schedule played out, whose run-length encoding gives the schedule back. -/
theorem waveformOfAnEmitIsItsSchedule : Obligations.WaveformOfAnEmitIsItsSchedule := by
  intro s k c hw hc hp hstart hr hv
  have h : EmitRun s k c 68245 := ⟨hw, hc, hp, hstart, hr, hv⟩
  refine ⟨h.waveform_acceptance, h.waveform_end (le_refl _), ⟨playOut (emitSched c.ports.address c.ports.command), ?_,
    fun j hj => h.waveform_inFlight hj (by omega), ?_⟩, ?_⟩
  · rw [length_playOut, duration_emitSched]
  · exact runLengths_playOut (sched_duration_pos _) (sched_isChain _)
  · obtain ⟨t, c', ht, hc', -, hsched⟩ := h.ends (le_refl _)
    exact ⟨t, c', ht.run, hc', hsched⟩

/-- The waveform over the run of a command: HIGH, the schedule played out, HIGH. -/
theorem EmitRun.waveform_eq {s : State} {k n : Nat} {c : Channel} (h : EmitRun s k c n) (hn : 68245 ≤ n) {j : Nat}
    (hj : j ≤ 68245) :
    waveform s k j =
      if j = 0 ∨ j = 68245 then some .high
      else (playOut (emitSched c.ports.address c.ports.command))[j - 1]? := by
  split_ifs with hrest
  · rcases hrest with rfl | rfl
    · exact h.waveform_acceptance
    · exact h.waveform_end hn
  · have hinFlight := h.waveform_inFlight (j := j - 1) (by omega) (by omega)
    rwa [Nat.sub_add_cancel (by omega)] at hinFlight

/-- Settles O46: the waveform over a run is a function of the operands. -/
theorem emitIsIdempotent : Obligations.EmitIsIdempotent := by
  intro s₁ s₂ k₁ k₂ c₁ c₂ hw₁ hw₂ hc₁ hc₂ hp₁ hp₂ hstart₁ hstart₂ haddress hcommand hr₁ hr₂ hv₁ hv₂ j hj
  have h₁ : EmitRun s₁ k₁ c₁ 68245 := ⟨hw₁, hc₁, hp₁, hstart₁, hr₁, hv₁⟩
  have h₂ : EmitRun s₂ k₂ c₂ 68245 := ⟨hw₂, hc₂, hp₂, hstart₂, hr₂, hv₂⟩
  rw [h₁.waveform_eq (le_refl _) hj, h₂.waveform_eq (le_refl _) hj, haddress, hcommand]
  refine ⟨rfl, ?_⟩
  split_ifs with hrest
  · rfl
  · have hlt : j - 1 < (playOut (emitSched c₂.ports.address c₂.ports.command)).length := by
      rw [length_playOut, duration_emitSched]
      omega
    rw [List.getElem?_eq_getElem hlt, Option.isSome_some]

/-- Settles O47: the stop mark's last tick, the idle tick whose port holds the next command, and its acceptance. -/
theorem backToBackCommandsAreOneTickApart : Obligations.BackToBackCommandsAreOneTickApart := by
  intro s k c hw hc hp hstart hr hv hnext
  have h : EmitRun s k c 68246 := ⟨hw, hc, hp, hstart, hr, hv⟩
  have hlow : waveform s k 68244 = some .low := by
    have hlast : (playOut (emitSched c.ports.address c.ports.command)).getLast? = some .low :=
      getLast?_playOut_sched _
    rw [List.getLast?_eq_getElem?, length_playOut, duration_emitSched] at hlast
    exact (h.waveform_inFlight (j := 68243) (by omega) (by omega)).trans hlast
  obtain ⟨t, d, ht, hd, hidle, -⟩ := h.ends (by omega)
  have hports : d.ports = portsAt s.program (s.tick + 68245) k := ht.ports k d (by omega) hd
  have htick : d.tick = .next (d.accept d.ports.address d.ports.command) :=
    Channel.tick_eq_next.2 (.inr (.inr (.inl
      ⟨ht.rst_eq_false hr (by omega) hd, hidle, by rw [hports]; exact hnext, rfl⟩)))
  obtain ⟨u, hu, hc'⟩ := ht.after_tick hv (by omega) hd htick
  refine ⟨hlow, h.waveform_end (by omega), hu.waveform_eq hc', u, _, hu.run, hc', ?_⟩
  rw [← hports]
  rfl

/-! ### The blocking call (R92) -/

theorem EmitCall.present_program {e : EmitCall} {s : State} {c : Channel} (h : s.channels[e.pin]? = some c) :
    (e.present s).program = withoutCommands s.program s.tick e.pin := by
  rw [EmitCall.present_of_some h]
  rfl

theorem EmitCall.present_channel {e : EmitCall} {s : State} {c : Channel} (h : s.channels[e.pin]? = some c) :
    (e.present s).channels[e.pin]? = some { c with ports := ⟨c.ports.rst, true, e.address, e.command⟩ } := by
  rw [EmitCall.present_of_some h]
  exact State.setChannel_getElem? (s := { s with program := withoutCommands s.program s.tick e.pin }) h _

/-- Presenting a call writes no register. -/
theorem EmitCall.present_wf {e : EmitCall} {s : State} {c : Channel} (hc : s.channels[e.pin]? = some c)
    (h : s.wf = true) : (e.present s).wf = true := by
  have hcw : c.regs.wf = true := State.wf_of_getElem? h hc
  refine List.all_eq_true.2 fun d hd => ?_
  rw [EmitCall.present_of_some hc] at hd
  rcases List.mem_or_eq_of_mem_set hd with hd | rfl
  · exact List.all_eq_true.1 h d hd
  · exact hcw

/-- Presenting a call adds no line that names a missing channel. -/
theorem EmitCall.present_pinsValidWithin {e : EmitCall} {s : State} {c : Channel} {n : Nat}
    (hc : s.channels[e.pin]? = some c) (h : s.pinsValidWithin n = true) : (e.present s).pinsValidWithin n = true := by
  refine List.all_eq_true.2 fun l hl => ?_
  rw [EmitCall.present_program hc] at hl
  obtain ⟨m, hm, htick, hchan, -⟩ := exists_of_mem_withoutCommands hl
  rw [EmitCall.present_tick, EmitCall.present_length, htick, hchan]
  exact List.all_eq_true.1 h m hm

/-- Presenting a call drives no reset. -/
theorem EmitCall.present_noResetWithin {e : EmitCall} {s : State} {c : Channel} {n : Nat}
    (hc : s.channels[e.pin]? = some c) (h : s.noResetWithin e.pin n = true) :
    (e.present s).noResetWithin e.pin n = true := by
  simp only [State.noResetWithin, Bool.and_eq_true] at h ⊢
  obtain ⟨hport, hlines⟩ := h
  refine ⟨?_, List.all_eq_true.2 fun l hl => ?_⟩
  · rw [hc] at hport
    rw [EmitCall.present_channel hc]
    exact hport
  · rw [EmitCall.present_program hc] at hl
    obtain ⟨m, hm, htick, hchan, hrst⟩ := exists_of_mem_withoutCommands hl
    rw [EmitCall.present_tick, htick, hchan, hrst]
    exact List.all_eq_true.1 hlines m hm

/-- R92 (1): the caller does not proceed unless it sees `busy = 0`. -/
theorem EmitCall.call_of_not_mayProceed {e : EmitCall} {s : State} (h : s.busyOf e.pin ≠ some false) (n : Nat) :
    e.call n s = none := by
  simp [EmitCall.call, EmitCall.mayProceed, h]

/-- A call that is presented on an idle channel begins a run of its command. -/
theorem EmitCall.present_emitRun {e : EmitCall} {s : State} {c : Channel} {n : Nat} (hw : s.wf = true)
    (hc : s.channels[e.pin]? = some c) (hidle : c.regs.busy = false) (hr : s.noResetWithin e.pin n = true)
    (hv : s.pinsValidWithin n = true) :
    EmitRun (e.present s) e.pin { c with ports := ⟨c.ports.rst, true, e.address, e.command⟩ } n :=
  ⟨EmitCall.present_wf hc hw, EmitCall.present_channel hc, c.regs.busy_eq_false.1 hidle, rfl,
    EmitCall.present_noResetWithin hc hr, EmitCall.present_pinsValidWithin hc hv⟩

/-- R92 (3): in the later ticks of a call its channel's port holds `start = 0`. -/
theorem EmitCall.start_of_runsTo {e : EmitCall} {s t : State} {c d : Channel} {j : Nat}
    (hc : s.channels[e.pin]? = some c) (h : RunsTo (e.present s) j t) (h1 : 1 ≤ j)
    (hd : t.channels[e.pin]? = some d) : d.ports.start = false := by
  rw [h.ports e.pin d h1 hd, EmitCall.present_program hc, EmitCall.present_tick]
  exact portsAt_withoutCommands_start s.program (Nat.le_add_right _ _)

/-- R92 (4): the call returns in the first idle tick of the run it begins. -/
theorem EmitCall.call_of_emitRun {e : EmitCall} {s t : State} {c d : Channel} (hidle : s.busyOf e.pin = some false)
    (h : EmitRun (e.present s) e.pin c 68245) (ht : RunsTo (e.present s) 68245 t)
    (hd : t.channels[e.pin]? = some d) (hregs : d.regs = Regs.idle) (n : Nat) :
    e.call n s = if 68245 ≤ n then some t else none := by
  have hend : t.busyOf e.pin = some false := by
    rw [State.busyOf_of_getElem? hd, hregs]
    rfl
  rw [EmitCall.call, if_pos (by simp [EmitCall.mayProceed, hidle])]
  refine awaitIdle_of_run (N := 68244) (fun j h1 hj => ?_) ht.run hend n
  obtain ⟨u, c', hu, hc', hbusy, -⟩ := h.inFlight h1 hj (by omega)
  exact ⟨u, hu.run, by rw [State.busyOf_of_getElem? hc', hbusy]⟩

/-- Settles O44: the call presents a command whose run is that of R90, with `start` silenced from the next tick on. -/
theorem blockingCallReturnsAtTheFirstIdleTick : Obligations.BlockingCallReturnsAtTheFirstIdleTick := by
  refine ⟨fun s e n hpin => ?_, fun s e c hw hc => ⟨fun hbusy n => ?_, fun hidle hr hv => ?_⟩⟩
  · refine EmitCall.call_of_not_mayProceed ?_ n
    simp [State.busyOf, List.getElem?_eq_none hpin]
  · refine EmitCall.call_of_not_mayProceed ?_ n
    simp [State.busyOf_of_getElem? hc, hbusy]
  · have hrst : c.ports.rst = false := (RunsTo.refl hw).rst_eq_false hr (by omega) hc
    have h := EmitCall.present_emitRun hw hc hidle hr hv
    refine ⟨hrst ▸ EmitCall.present_channel hc, fun j h1 hj => ?_, ?_⟩
    · obtain ⟨u, d, hu, hd, hbusy⟩ := h.busy_eq h1 hj hj
      exact ⟨u, d, hu.run, hd, EmitCall.start_of_runsTo hc hu h1 hd, hbusy⟩
    · obtain ⟨t, c', ht, hc', hregs, -⟩ := h.ends (le_refl _)
      refine ⟨t, c', ht.run, by rw [ht.tick, EmitCall.present_tick], hc', hregs, ?_⟩
      exact EmitCall.call_of_emitRun (by rw [State.busyOf_of_getElem? hc, hidle]) h ht hc' hregs

end Sys2Proof.Machine

/-! PROOFS. Exceptions (`60_exceptions.md`): the block raises none, and the obligation that follows. -/

namespace Sys2Proof.Machine

/-- Settles O49: each channel's tick answers next where its registers have a meaning, so the ticks of all of them do. -/
theorem stepAnswersNext : Obligations.StepAnswersNext :=
  fun _ hw haddr => exists_step_of_wf hw haddr

end Sys2Proof.Machine

/-! PROOFS. Reset (`70_reset_and_hazards.md`): `RESET`, the command level and the step with `rst = 1` all clear the
channel, and the obligations that follow. -/

namespace Sys2Proof.Machine

/-- `RESET` completes on every existing channel, whatever its registers and ports hold (R114). -/
theorem exec_reset {s : State} {k : Nat} {c : Channel} (hc : s.channels[k]? = some c) :
    exec (.reset k) s = .next (s.setChannel k c.clear) :=
  onChannel_of_some hc _

/-- With `rst = 1` on the port, `EMIT` and `NOP` alike are `RESET` (R103, R114). -/
theorem onChannel_commandTick_of_rst {s : State} {k : Nat} {c : Channel} (hc : s.channels[k]? = some c)
    (hrst : c.ports.rst = true) (whenIdle : Channel → Channel) :
    onChannel k s (fun c => c.commandTick whenIdle) = exec (.reset k) s := by
  rw [exec_reset hc]
  exact onChannel_eq_next.2 ⟨c, _, hc, commandTick_eq_next.2 (.inl ⟨hrst, rfl⟩), rfl⟩

/-- After a step with `rst = 1` a channel is the cleared one with the next tick's ports. -/
theorem channel_of_step_of_rst {s t : State} {k : Nat} {c c' : Channel} (h : step s = .next t)
    (hc : s.channels[k]? = some c) (hc' : t.channels[k]? = some c') (hrst : c.ports.rst = true) :
    c' = { c.clear with ports := portsAt s.program (s.tick + 1) k } := by
  obtain ⟨c₀, u, hc₀, hu, rfl⟩ := exists_tick_of_step h hc'
  cases hc.symm.trans hc₀
  cases hu.symm.trans (Channel.tick_eq_next.2 (.inl ⟨hrst, rfl⟩))
  rfl

/-- Settles O50: `RESET` writes the cleared channel, whose registers are the reset values, and so do the command level
and the step with `rst = 1`. -/
theorem resetClearsFromEveryState : Obligations.ResetClearsFromEveryState := by
  intro s k c a d hc
  refine ⟨exec_reset hc, fun hrst => ?_⟩
  refine ⟨onChannel_commandTick_of_rst hc hrst _, onChannel_commandTick_of_rst hc hrst _, fun t c' h hc' => ?_⟩
  rw [channel_of_step_of_rst h hc hc' hrst]
  rfl

/-- Settles O51: the cleared channel is idle, so its pin is HIGH and it is not busy, and it holds the record it had. -/
theorem resetCutsTheTransmissionShort : Obligations.ResetCutsTheTransmissionShort := by
  intro s t k c c' h hc hc' hrst
  rw [channel_of_step_of_rst h hc hc' hrst]
  exact ⟨c.clear.regs.out_eq_high_iff.2 (.inl rfl), c.clear.regs.busy_eq_false.2 rfl, c.clear_sched⟩

end Sys2Proof.Machine

/-! PROOFS. The operation table (`30_encoding.md` section 6): the encoded word of every operation against its row. -/

namespace Sys2Proof

open Laws.EncodingMatchesTable

/-- Settles O14, row by row: bit 16 of a CMD word is `start`, bits 3 to 1 of a UOP word are the phase's code, a FRAME word
has no fixed bit, and the words of `rst` and of the symbols carry at most the one bit of their row. -/
theorem encodedWordsMatchTheTable : Obligations.EncodedWordsMatchTheTable := by
  intro i
  cases i with
  | emit k a d => exact emit k a d
  | nop k a d => exact nop k a d
  | reset k => exact reset k
  | pack k a d => exact pack k a d
  | lead k => exact lead k
  | bit0 k => exact bit0 k
  | bit1 k => exact bit1 k
  | stop k => exact stop k
  | rest k => exact rest k
  | uIdle k x => exact uIdle k x
  | uLeadMark k x => exact uLeadMark k x
  | uLeadSpace k x => exact uLeadSpace k x
  | uBitMark k b => exact uBitMark k b
  | uBitSpace k x => exact uBitSpace k x
  | uStopMark k x => exact uStopMark k x

end Sys2Proof
